-- ==== Sys2Proof/Word.lean ====
section
/-! DEFINITION. The widths of the block's values (spec/00_scope.md R4, spec/30_encoding.md R40). -/

namespace Sys2Proof

/-- One input byte, the unit both engines consume, and the width of SUM (R4, R11). -/
abbrev Byte := BitVec 8

/-- One 16-bit register slot: the data bus and the width of CRC (R4, R10, R27). -/
abbrev Half := BitVec 16

/-- A register address, `addr[2:0]` (R20, R24). -/
abbrev Addr := BitVec 3

/-- A transaction word `T[19:0]` (R40). -/
abbrev TWord := BitVec 20

end Sys2Proof
end

