-- ==== Sys2Proof/Config.lean ====
section
/-! DEFINITION. The values the spec leaves open (spec/93_implementation_defined.md U1). Nothing else about
the block is open: spec/00_scope.md R4, "No parameter is left open". -/

namespace Sys2Proof

/-- What CRC holds after the n-th loss of power, until a reset or an INIT: "each of the 24 bits may hold any
value" (R15, R121). A free value: no statement may rest on it (log entry 5). -/
opaque Config.powerUpCrc : Nat → Half

/-- What SUM holds after the n-th loss of power, until a reset or an INIT (R15, R121). A free value (log
entry 5). -/
opaque Config.powerUpSum : Nat → Byte

end Sys2Proof
end

