-- ==== Sys2Proof/Syntax.lean ====
section
/-! DEFINITION. The transactions of spec/30_encoding.md R43, the register slots of spec/20_memory.md R24, and
the assembler's source lines of spec/30_encoding.md R46 and R47. -/

namespace Sys2Proof

/-- The eight register slots (R24), named as R46 names them. -/
inductive Reg where
  | data | ctrl | crc | sum | crcl | crch | rsv6 | rsv7
  deriving DecidableEq, Repr

/-- A transaction: one constructor for each row of the opcode map (R43). Bits the block ignores and a
disassembler does not print (R45, R46) are no part of it. -/
inductive Instr where
  /-- R62: feed one byte to both engines. -/
  | feed (b : Byte)
  /-- R63: start a new computation. -/
  | init
  /-- R64: a write to CTRL with bit 0 = 0. -/
  | ctlNop
  /-- R80: a write to the CRC slot, ignored. -/
  | wrCrc (d : Half)
  /-- R81: a write to the SUM slot, ignored. -/
  | wrSum (d : Half)
  /-- R82: a write to the CRCL slot, ignored. -/
  | wrCrcl (d : Half)
  /-- R83: a write to the CRCH slot, ignored. -/
  | wrCrch (d : Half)
  /-- R88: a write to reserved address 6, ignored. -/
  | wrRsv6 (d : Half)
  /-- R89: a write to reserved address 7, ignored. -/
  | wrRsv7 (d : Half)
  /-- R84: a read of the write-only DATA slot. -/
  | rdData
  /-- R85: a read of the CTRL slot. -/
  | rdCtl
  /-- R70: read the 16-bit CRC. -/
  | rdCrc
  /-- R71: read the additive checksum. -/
  | rdSum
  /-- R72: read the low CRC byte. -/
  | rdCrcl
  /-- R73: read the high CRC byte. -/
  | rdCrch
  /-- R86: a read of reserved address 6. -/
  | rdRsv6
  /-- R87: a read of reserved address 7. -/
  | rdRsv7
  deriving DecidableEq, Repr

/-- One row of the opcode map (R43): a word selects it when `(T & mask) == match`. -/
structure OpRow where
  mnemonic : String
  pattern : TWord
  mask : TWord
  deriving DecidableEq, Repr

/-- An assembler source line, read into its parts (R46, R47). Operands are the numbers as written: whether
they fit is the assembler's check (`AsmLine.wellFormed`). -/
inductive AsmLine where
  | feed (b : Nat)
  | init
  | ctlNop
  | wr (r : Reg) (d : Nat)
  | rd (r : Reg)
  | rdCrc
  | rdSum
  | rdCrcl
  | rdCrch
  /-- Pseudo-instruction `NOP`. -/
  | nop
  /-- Pseudo-instruction `FEEDS b0, ..., b(n-1)`. -/
  | feeds (bs : List Nat)
  /-- Pseudo-instruction `CRC16 b0, ..., b(n-1)`. -/
  | crc16 (bs : List Nat)
  /-- Pseudo-instruction `CKSUM8 b0, ..., b(n-1)`. -/
  | cksum8 (bs : List Nat)
  /-- Pseudo-instruction `RDTRAILER`. -/
  | rdTrailer
  deriving DecidableEq, Repr

/-- Why the assembler refuses a source line (R46). -/
inductive AsmError where
  /-- The line holds no mnemonic of R46 or R47. -/
  | unknownMnemonic
  /-- The mnemonic does not take this many operands. -/
  | operandCount
  /-- A number is neither decimal nor `0x` hexadecimal. -/
  | badNumber
  /-- A register is neither a name of R46 nor a number 0 to 7. -/
  | badRegister
  /-- `FEED b` with `b > 255`, or `WR reg, d` with `d > 0xFFFF`. -/
  | operandTooLarge
  deriving DecidableEq, Repr

end Sys2Proof
end

