-- ==== Sys2Proof/Decode.lean ====
section
/-! DEFINITION. The transaction word, its decoder and its encoder (spec/30_encoding.md R40 to R46). -/

namespace Sys2Proof

/-- The register of an address (R24). -/
def Reg.ofAddr (a : Addr) : Reg :=
  match a.toNat with
  | 0 => .data
  | 1 => .ctrl
  | 2 => .crc
  | 3 => .sum
  | 4 => .crcl
  | 5 => .crch
  | 6 => .rsv6
  | _ => .rsv7

/-- The address of a register (R24, R46). -/
def Reg.addr : Reg → Addr
  | .data => 0#3
  | .ctrl => 1#3
  | .crc => 2#3
  | .sum => 3#3
  | .crcl => 4#3
  | .crch => 5#3
  | .rsv6 => 6#3
  | .rsv7 => 7#3

/-- The transaction word of one cycle, `{we, addr[2:0], wdata[15:0]}` (R40). -/
def tword (we : Bool) (addr : Addr) (wdata : Half) : TWord :=
  BitVec.ofBool we ++ addr ++ wdata

/-- Field `w`, bit 19: 1 = write, 0 = read (R40). -/
def wField (T : TWord) : Bool := T.getLsbD 19

/-- Field `a`, bits 18:16: the register address (R40). -/
def aField (T : TWord) : Addr := T.extractLsb' 16 3

/-- Field `d`, bits 15:0: the write data (R40). -/
def dField (T : TWord) : Half := T.extractLsb' 0 16

/-- The FEED byte operand, `T[7:0]` (R42). -/
def bField (T : TWord) : Byte := T.extractLsb' 0 8

/-- The CTRL operand, `T[0]` (R42). -/
def iField (T : TWord) : Bool := T.getLsbD 0

/-- The W format's row, chosen by the address and, for CTRL, by `d[0]` (R41, R44). -/
def decodeWrite (T : TWord) : Instr :=
  match Reg.ofAddr (aField T) with
  | .data => .feed (bField T)
  | .ctrl => if iField T then .init else .ctlNop
  | .crc => .wrCrc (dField T)
  | .sum => .wrSum (dField T)
  | .crcl => .wrCrcl (dField T)
  | .crch => .wrCrch (dField T)
  | .rsv6 => .wrRsv6 (dField T)
  | .rsv7 => .wrRsv7 (dField T)

/-- The R format's row, chosen by the address (R41, R44). -/
def decodeRead (T : TWord) : Instr :=
  match Reg.ofAddr (aField T) with
  | .data => .rdData
  | .ctrl => .rdCtl
  | .crc => .rdCrc
  | .sum => .rdSum
  | .crcl => .rdCrcl
  | .crch => .rdCrch
  | .rsv6 => .rdRsv6
  | .rsv7 => .rdRsv7

/-- The decode function, "total on every 20-bit word" (R44). -/
def decode (T : TWord) : Instr :=
  if wField T then decodeWrite T else decodeRead T

/-- Why a number is not decoded. No transaction word is illegal (R45); only a number that is no word is. -/
inductive DecodeError where
  /-- The number has a bit above bit 19: "There is one length (20 bits)" (R40). -/
  | notTwentyBits
  deriving DecidableEq, Repr

/-- A number read as a transaction word; one that does not fit in 20 bits is rejected by name (R40). -/
def wordOfNumber (w : Nat) : Except DecodeError TWord :=
  if w < 2 ^ 20 then .ok (BitVec.ofNat 20 w) else .error .notTwentyBits

/-- The decoder on any number (R40, R44). -/
def decodeNumber (w : Nat) : Except DecodeError Instr := (wordOfNumber w).map decode

/-- The number the low `nbits` bits of `w` make, every bit above them 0. -/
def tableNumber (nbits w : Nat) : Nat := w % 2 ^ nbits

/-- The instruction the decoder reads from a table row's word of `nbits` bits, bit 0 of the number being `T[0]`;
none where the decoder rejects the number. -/
def decodeTableWord (nbits w : Nat) : Option Instr := (decodeNumber (tableNumber nbits w)).toOption

/-- The word of an instruction, as an assembler writes it (R46): every bit the block ignores and the
disassembler does not print is 0 (R41, R45). -/
def encode : Instr → TWord
  | .feed b => tword true (Reg.addr .data) (b.setWidth 16)
  | .init => tword true (Reg.addr .ctrl) 1#16
  | .ctlNop => tword true (Reg.addr .ctrl) 0#16
  | .wrCrc d => tword true (Reg.addr .crc) d
  | .wrSum d => tword true (Reg.addr .sum) d
  | .wrCrcl d => tword true (Reg.addr .crcl) d
  | .wrCrch d => tword true (Reg.addr .crch) d
  | .wrRsv6 d => tword true (Reg.addr .rsv6) d
  | .wrRsv7 d => tword true (Reg.addr .rsv7) d
  | .rdData => tword false (Reg.addr .data) 0#16
  | .rdCtl => tword false (Reg.addr .ctrl) 0#16
  | .rdCrc => tword false (Reg.addr .crc) 0#16
  | .rdSum => tword false (Reg.addr .sum) 0#16
  | .rdCrcl => tword false (Reg.addr .crcl) 0#16
  | .rdCrch => tword false (Reg.addr .crch) 0#16
  | .rdRsv6 => tword false (Reg.addr .rsv6) 0#16
  | .rdRsv7 => tword false (Reg.addr .rsv7) 0#16

/-- The opcode map as R43 prints it: mnemonic, match, mask. -/
def opcodeTable : List OpRow :=
  [ ⟨"FEED", 0x80000#20, 0xF0000#20⟩,
    ⟨"INIT", 0x90001#20, 0xF0001#20⟩,
    ⟨"CTLNOP", 0x90000#20, 0xF0001#20⟩,
    ⟨"WRCRC", 0xA0000#20, 0xF0000#20⟩,
    ⟨"WRSUM", 0xB0000#20, 0xF0000#20⟩,
    ⟨"WRCRCL", 0xC0000#20, 0xF0000#20⟩,
    ⟨"WRCRCH", 0xD0000#20, 0xF0000#20⟩,
    ⟨"WRRSV6", 0xE0000#20, 0xF0000#20⟩,
    ⟨"WRRSV7", 0xF0000#20, 0xF0000#20⟩,
    ⟨"RDDATA", 0x00000#20, 0xF0000#20⟩,
    ⟨"RDCTL", 0x10000#20, 0xF0000#20⟩,
    ⟨"RDCRC", 0x20000#20, 0xF0000#20⟩,
    ⟨"RDSUM", 0x30000#20, 0xF0000#20⟩,
    ⟨"RDCRCL", 0x40000#20, 0xF0000#20⟩,
    ⟨"RDCRCH", 0x50000#20, 0xF0000#20⟩,
    ⟨"RDRSV6", 0x60000#20, 0xF0000#20⟩,
    ⟨"RDRSV7", 0x70000#20, 0xF0000#20⟩ ]

/-- "A word `T` selects a row when `(T & mask) == match`" (R43). -/
def OpRow.selects (row : OpRow) (T : TWord) : Bool := T &&& row.mask == row.pattern

/-- The row name of an instruction (R43). -/
def Instr.mnemonic : Instr → String
  | .feed _ => "FEED"
  | .init => "INIT"
  | .ctlNop => "CTLNOP"
  | .wrCrc _ => "WRCRC"
  | .wrSum _ => "WRSUM"
  | .wrCrcl _ => "WRCRCL"
  | .wrCrch _ => "WRCRCH"
  | .wrRsv6 _ => "WRRSV6"
  | .wrRsv7 _ => "WRRSV7"
  | .rdData => "RDDATA"
  | .rdCtl => "RDCTL"
  | .rdCrc => "RDCRC"
  | .rdSum => "RDSUM"
  | .rdCrcl => "RDCRCL"
  | .rdCrch => "RDCRCH"
  | .rdRsv6 => "RDRSV6"
  | .rdRsv7 => "RDRSV7"

/-- The operand a disassembler prints: "`b` for FEED and `d` for the other writes" (R46). -/
def Instr.operand : Instr → Option Nat
  | .feed b => some b.toNat
  | .wrCrc d | .wrSum d | .wrCrcl d | .wrCrch d | .wrRsv6 d | .wrRsv7 d => some d.toNat
  | .init | .ctlNop | .rdData | .rdCtl | .rdCrc | .rdSum | .rdCrcl | .rdCrch | .rdRsv6 | .rdRsv7 => none

/-- The disassembler: a word's row name and printed operand (R46). -/
def disassemble (T : TWord) : String × Option Nat := ((decode T).mnemonic, (decode T).operand)

end Sys2Proof
end

