-- ==== Sys2Proof/Machine/State.lean ====
section
/-! DEFINITION. The state of the block, its ports, the inputs the outside world can give it, and the reasons a
step can stop (spec/10_state.md, spec/20_memory.md R20, spec/60_exceptions.md). -/

namespace Sys2Proof.Machine

/-- What the input ports carry at one rising edge of `clk` (R20). Each is driven to 0 or 1 (R23). -/
structure Ports where
  /-- Synchronous reset, active high. -/
  rst : Bool
  /-- 1 = a transaction occupies this cycle. -/
  sel : Bool
  /-- 1 = write transaction, 0 = read transaction. -/
  we : Bool
  /-- Register address. -/
  addr : Addr
  /-- Write data. -/
  wdata : Half
  deriving DecidableEq, Repr

/-- One thing that can happen to the block from outside. -/
inductive Input where
  /-- A cycle, with what the input ports carry at the rising edge that ends it (R20, R21). -/
  | edge (p : Ports)
  /-- An interval with no rising edge, whatever the ports carry meanwhile: a stopped clock (R112), or a reset
  asserted and released between edges (R120). -/
  | noEdge (p : Ports)
  /-- Power is removed and comes back (R112). -/
  | powerLoss
  /-- An edge outside the spec: an input port at X or Z, or a setup or hold violation (R23). -/
  | undriven
  deriving DecidableEq, Repr

/-- The state. The block's architectural state is `(crc, sum)` alone (R12); `rdata` is its output port; `inputs`
and `draws` are the model's own (log entries 2 and 5). -/
structure State where
  /-- CRC, the 16-bit accumulator (R10). -/
  crc : Half
  /-- SUM, the 8-bit accumulator (R11). -/
  sum : Byte
  /-- What `rdata` carried at the latest rising edge, where the master samples it (R20, R22; log entry 1). -/
  rdata : Half
  /-- What the master, outside the block, is still to present, soonest first (R7, R13; log entry 2). -/
  inputs : List Input
  /-- How many losses of power there were: the index of the next free draw (R15; log entry 5). -/
  draws : Nat
  deriving DecidableEq, Repr

/-- Why a step stops with a fault. The block itself raises none (R100). -/
inductive Fault where
  /-- Raised by `step` at an edge whose input ports are not driven to 0 and 1: "a model has no step for it"
  (R23; U6: stuck). Safe: the model stops where the spec says nothing (log entry 4). -/
  | undrivenInput
  deriving DecidableEq, Repr

/-- Why a step is refused. -/
inductive Refusal where
  /-- Would be answered by an arm of `exec` for a transaction without a meaning. Safe. No arm answers it: every
  row of the opcode table has its meaning. -/
  | notModelled (mnemonic : String)
  deriving DecidableEq, Repr

/-- The machine right after reset (R120, R121): `CRC = 0xFFFF`, `SUM = 0x00`, `rdata = 0x0000`. The master has
presented nothing yet (log entry 2) and no draw was taken (log entry 5). -/
def State.reset : State where
  crc := 0xFFFF#16
  sum := 0x00#8
  rdata := 0x0000#16
  inputs := []
  draws := 0

end Sys2Proof.Machine
end

