-- ==== Sys2Proof/Machine/Ops.lean ====
section
/-! DEFINITION. The step functions of the two engines, the functions they accumulate, the register slots, and the
named operations on State that the meanings share (spec/40_accumulate.md R60 to R65, spec/20_memory.md R20 to
R28, spec/70_reset_and_hazards.md R120). The block has no exception to take and none to return from (R100, R103,
R104), no flags (R12) and no memory array (R14). -/

namespace Sys2Proof.Machine

/-- "initial register `0xFFFF`" (R4, R65). -/
def crcInit : Half := 0xFFFF#16

/-- "polynomial `0xA001` (reflected)" (R4, R60). -/
def crcPoly : Half := 0xA001#16

/-- The start of the additive checksum (R4, R65). -/
def sumInit : Byte := 0x00#8

/-- One iteration of `crc_step`: shift right, and XOR the polynomial when the bit shifted out is 1 (R60). -/
def crcBit (c : Half) : Half :=
  if c.getLsbD 0 then (c >>> 1) ^^^ crcPoly else c >>> 1

/-- `n` iterations (R60). -/
def crcBits : Nat → Half → Half
  | 0, c => c
  | n + 1, c => crcBits n (crcBit c)

/-- `crc_step` (R60): the byte enters at the low end, then eight iterations. -/
def crcStep (c : Half) (b : Byte) : Half := crcBits 8 (c ^^^ b.setWidth 16)

/-- `sum_step`: `(zext_9(s) + zext_9(b))[7:0]`, the carry out of bit 7 discarded (R61). -/
def sumStep (s b : Byte) : Byte := (s.setWidth 9 + b.setWidth 9).extractLsb' 0 8

/-- `crc16Modbus(bs) = foldl crc_step 0xFFFF bs` (R65). -/
def crc16Modbus (bs : List Byte) : Half := bs.foldl crcStep crcInit

/-- `additiveChecksum(bs) = foldl sum_step 0x00 bs` (R65). -/
def additiveChecksum (bs : List Byte) : Byte := bs.foldl sumStep sumInit

/-- `CRC[7:0]` (R24, R72). -/
def crcLow (c : Half) : Byte := c.extractLsb' 0 8

/-- `CRC[15:8]` (R24, R73). -/
def crcHigh (c : Half) : Byte := c.extractLsb' 8 8

/-- The read column of the register map (R24): what a read of a slot returns. -/
def readSlot (r : Reg) (s : State) : Half :=
  match r with
  | .data => 0x0000#16
  | .ctrl => 0x0000#16
  | .crc => s.crc
  | .sum => s.sum.setWidth 16
  | .crcl => (crcLow s.crc).setWidth 16
  | .crch => (crcHigh s.crc).setWidth 16
  | .rsv6 => 0x0000#16
  | .rsv7 => 0x0000#16

/-- What `rdata` carries in a cycle (R22): the addressed slot's value, from the state at the start of the cycle, in
a read cycle without reset; 0x0000 in every other cycle. -/
def rdataDuring (p : Ports) (s : State) : Half :=
  if p.sel && !p.we && !p.rst then readSlot (Reg.ofAddr p.addr) s else 0x0000#16

/-- The transaction word of a cycle (R40). -/
def Ports.word (p : Ports) : TWord := tword p.we p.addr p.wdata

/-- The cycle that presents a transaction word: `sel = 1` (R40), no reset. -/
def Ports.ofWord (T : TWord) : Ports where
  rst := false
  sel := true
  we := wField T
  addr := aField T
  wdata := dField T

/-- A cycle with no transaction and no reset (R21). -/
def Ports.idle : Ports where
  rst := false
  sel := false
  we := false
  addr := 0#3
  wdata := 0#16

/-- The cycle that applies reset (R120). -/
def Ports.reset : Ports where
  rst := true
  sel := false
  we := false
  addr := 0#3
  wdata := 0#16

/-- The cycles a program presents, one transaction per cycle (R7, R21). -/
def transactions (ws : List TWord) : List Input := ws.map fun T => Input.edge (Ports.ofWord T)

/-- A cycle that is no read drives `rdata = 0x0000` (R22). -/
def State.quiet (s : State) : State := { s with rdata := 0x0000#16 }

/-- `rdata <- v` (R6, R22). -/
def State.drive (v : Half) (s : State) : State := { s with rdata := v }

/-- `CRC <- c` and `SUM <- m`, both at the end of the transaction (R6, R38). -/
def State.accumulate (c : Half) (m : Byte) (s : State) : State := { s with crc := c, sum := m }

/-- Both accumulators at the values INIT and reset give them (R63, R120). -/
def State.clear (s : State) : State := s.accumulate crcInit sumInit

/-- A byte into both engines at once (R62). -/
def State.feedByte (b : Byte) (s : State) : State :=
  s.accumulate (crcStep s.crc b) (sumStep s.sum b)

/-- Reset at a rising edge with `rst = 1` (R120). -/
def applyReset (s : State) : State := s.clear.quiet

/-- An idle cycle leaves `CRC` and `SUM` unchanged (R21). -/
def idleCycle (s : State) : State := s.quiet

/-- Loss of power: the 24 bits are unspecified until the next reset (R112, R15), a free draw each time. The master's
latest sample is no state of the block and stays (log entry 1). -/
def losePower (s : State) : State :=
  { s with crc := Config.powerUpCrc s.draws, sum := Config.powerUpSum s.draws, draws := s.draws + 1 }

/-- What the block does at a rising edge. -/
inductive EdgeAction where
  | reset
  | transaction (T : TWord)
  | idle
  deriving DecidableEq, Repr

/-- The priority of R21: reset discards a transaction presented in the same cycle; else a transaction; else
nothing. -/
def edgeAction (p : Ports) : EdgeAction :=
  if p.rst then .reset else if p.sel then .transaction p.word else .idle

/-- What the master presents next, and the state with it taken off the list. A master with nothing left presents
idle cycles (log entry 3). -/
def takeInput (s : State) : Input × State :=
  match s.inputs with
  | [] => (.edge Ports.idle, s)
  | i :: rest => (i, { s with inputs := rest })

/-- What presents a table row's number of `nbits` bits: its transaction's cycle. A number that is no transaction
word (R40) is carried by no driven cycle: it is presented as an edge outside the spec, for which there is no step
(R23). -/
def inputOfNumber (nbits w : Nat) : Input :=
  match wordOfNumber (tableNumber nbits w) with
  | .ok T => .edge (Ports.ofWord T)
  | .error .notTwentyBits => .undriven

end Sys2Proof.Machine
end

