-- ==== Sys2Proof/Machine/Accumulate.lean ====
section
/-! DEFINITION. The accumulate family: FEED, INIT, CTLNOP (spec/40_accumulate.md). -/

namespace Sys2Proof.Machine

/-- FEED (R62). -/
def execFeed (b : Byte) (s : State) : Host.Outcome State Fault Refusal := .next (s.feedByte b).quiet

/-- INIT (R63). -/
def execInit (s : State) : Host.Outcome State Fault Refusal := .next s.clear.quiet

/-- CTLNOP: no state change (R64). -/
def execCtlNop (s : State) : Host.Outcome State Fault Refusal := .next s.quiet

end Sys2Proof.Machine
end

