-- ==== Sys2Proof/Machine/Readback.lean ====
section
/-! DEFINITION. The readback family: RDCRC, RDSUM, RDCRCL, RDCRCH (spec/41_readback.md). -/

namespace Sys2Proof.Machine

/-- RDCRC: `rdata <- CRC[15:0]` (R70). -/
def execRdCrc (s : State) : Host.Outcome State Fault Refusal := .next (s.drive s.crc)

/-- RDSUM: `rdata <- zext_16(SUM[7:0])` (R71). -/
def execRdSum (s : State) : Host.Outcome State Fault Refusal := .next (s.drive (s.sum.setWidth 16))

/-- RDCRCL: `rdata <- zext_16(CRC[7:0])` (R72). -/
def execRdCrcl (s : State) : Host.Outcome State Fault Refusal :=
  .next (s.drive ((crcLow s.crc).setWidth 16))

/-- RDCRCH: `rdata <- zext_16(CRC[15:8])` (R73). -/
def execRdCrch (s : State) : Host.Outcome State Fault Refusal :=
  .next (s.drive ((crcHigh s.crc).setWidth 16))

end Sys2Proof.Machine
end

