-- ==== Sys2Proof/Machine/Unmapped.lean ====
section
/-! DEFINITION. The unmapped family: writes that are ignored, reads that return zero (spec/42_unmapped.md). A write
cycle drives `rdata = 0x0000` like every cycle that is no read (R22). -/

namespace Sys2Proof.Machine

/-- WRCRC: no state change; `CRC` is not loaded with `d` (R80). -/
def execWrCrc (_d : Half) (s : State) : Host.Outcome State Fault Refusal := .next s.quiet

/-- WRSUM: no state change (R81). -/
def execWrSum (_d : Half) (s : State) : Host.Outcome State Fault Refusal := .next s.quiet

/-- WRCRCL: no state change; no byte is fed (R82). -/
def execWrCrcl (_d : Half) (s : State) : Host.Outcome State Fault Refusal := .next s.quiet

/-- WRCRCH: no state change (R83). -/
def execWrCrch (_d : Half) (s : State) : Host.Outcome State Fault Refusal := .next s.quiet

/-- WRRSV6: no state change (R88). -/
def execWrRsv6 (_d : Half) (s : State) : Host.Outcome State Fault Refusal := .next s.quiet

/-- WRRSV7: no state change (R89). -/
def execWrRsv7 (_d : Half) (s : State) : Host.Outcome State Fault Refusal := .next s.quiet

/-- RDDATA: `rdata <- 0x0000`; the last byte fed is not kept (R84). -/
def execRdData (s : State) : Host.Outcome State Fault Refusal := .next (s.drive 0x0000#16)

/-- RDCTL: `rdata <- 0x0000`, also right after INIT (R85). -/
def execRdCtl (s : State) : Host.Outcome State Fault Refusal := .next (s.drive 0x0000#16)

/-- RDRSV6: `rdata <- 0x0000` (R86). -/
def execRdRsv6 (s : State) : Host.Outcome State Fault Refusal := .next (s.drive 0x0000#16)

/-- RDRSV7: `rdata <- 0x0000` (R87). -/
def execRdRsv7 (s : State) : Host.Outcome State Fault Refusal := .next (s.drive 0x0000#16)

end Sys2Proof.Machine
end

