-- ==== Sys2Proof/Machine/Dispatch.lean ====
section
/-! DEFINITION. One arm for each transaction of spec/30_encoding.md R43. -/

namespace Sys2Proof.Machine

def exec (i : Instr) (s : State) : Host.Outcome State Fault Refusal :=
  match i with
  | .feed b => Sys2Proof.Machine.execFeed b s
  | .init => Sys2Proof.Machine.execInit s
  | .ctlNop => Sys2Proof.Machine.execCtlNop s
  | .wrCrc d => Sys2Proof.Machine.execWrCrc d s
  | .wrSum d => Sys2Proof.Machine.execWrSum d s
  | .wrCrcl d => Sys2Proof.Machine.execWrCrcl d s
  | .wrCrch d => Sys2Proof.Machine.execWrCrch d s
  | .wrRsv6 d => Sys2Proof.Machine.execWrRsv6 d s
  | .wrRsv7 d => Sys2Proof.Machine.execWrRsv7 d s
  | .rdData => Sys2Proof.Machine.execRdData s
  | .rdCtl => Sys2Proof.Machine.execRdCtl s
  | .rdCrc => Sys2Proof.Machine.execRdCrc s
  | .rdSum => Sys2Proof.Machine.execRdSum s
  | .rdCrcl => Sys2Proof.Machine.execRdCrcl s
  | .rdCrch => Sys2Proof.Machine.execRdCrch s
  | .rdRsv6 => Sys2Proof.Machine.execRdRsv6 s
  | .rdRsv7 => Sys2Proof.Machine.execRdRsv7 s

end Sys2Proof.Machine
end

