-- ==== Sys2Proof/Machine/Step.lean ====
section
/-! DEFINITION. One step: the block meets the next input (spec/20_memory.md R21, spec/60_exceptions.md R112). -/

namespace Sys2Proof.Machine

/-- One step. At a rising edge the block does exactly one of reset, a transaction, nothing (R21); without an edge
the state holds (R112); a loss of power loses it (R112); an edge outside the spec has no step (R23). -/
def step (s : State) : Host.Outcome State Fault Refusal :=
  match takeInput s with
  | (.edge p, s') =>
    match edgeAction p with
    | .reset => .next (applyReset s')
    | .transaction T => exec (decode T) s'
    | .idle => .next (idleCycle s')
  | (.noEdge _, s') => .next s'
  | (.powerLoss, s') => .next (losePower s')
  | (.undriven, _) => .fault .undrivenInput

/-- `s` with the cycle that presents a table row's word at the head of the master's inputs, where the next step
takes it (log entry 2). -/
def State.withFetchWord (s : State) (nbits w : Nat) : State :=
  { s with inputs := inputOfNumber nbits w :: s.inputs }

end Sys2Proof.Machine
end

