-- ==== Sys2Proof/WellFormed.lean ====
section
/-! DEFINITION. What the assembler checks of a source line (spec/30_encoding.md R46).

An `Instr` needs no check: each operand's type has exactly the width of its field (spec/30_encoding.md R42),
so every term of `Instr` is well formed and has a transaction word. -/

namespace Sys2Proof

/-- A number that a byte operand can carry: "`FEED b` (0 ≤ b ≤ 255)" (R46). -/
def byteFits (b : Nat) : Bool := b ≤ 255

/-- A number that a slot operand can carry: "`WR reg, d` (0 ≤ d ≤ 0xFFFF)" (R46). -/
def halfFits (d : Nat) : Bool := d ≤ 0xFFFF

/-- "An assembler refuses `FEED b` with `b > 255` and `WR reg, d` with `d > 0xFFFF`" (R46); a pseudo-instruction
is refused when a line of its expansion is (R47). -/
def AsmLine.wellFormed : AsmLine → Bool
  | .feed b => byteFits b
  | .wr _ d => halfFits d
  | .feeds bs | .crc16 bs | .cksum8 bs => bs.all byteFits
  | .init | .ctlNop | .rd _ | .rdCrc | .rdSum | .rdCrcl | .rdCrch | .nop | .rdTrailer => true

end Sys2Proof
end

