-- ==== Sys2Proof/Machine/Assembler.lean ====
section
/-! DEFINITION. The assembler: a source line's words, the expansions of the pseudo-instructions, and the reading of a
line's text (spec/30_encoding.md R46, R47). -/

namespace Sys2Proof.Machine

/-- The expansion of a source line into lines that are no pseudo-instructions (R47). -/
def expand : AsmLine → List AsmLine
  | .nop => [.ctlNop]
  | .feeds bs => bs.map .feed
  | .crc16 bs => .init :: bs.map .feed ++ [.rdCrc]
  | .cksum8 bs => .init :: bs.map .feed ++ [.rdSum]
  | .rdTrailer => [.rdCrcl, .rdCrch]
  | .feed b => [.feed b]
  | .init => [.init]
  | .ctlNop => [.ctlNop]
  | .wr r d => [.wr r d]
  | .rd r => [.rd r]
  | .rdCrc => [.rdCrc]
  | .rdSum => [.rdSum]
  | .rdCrcl => [.rdCrcl]
  | .rdCrch => [.rdCrch]

/-- The words of one line, each as the table of R46 writes it; a pseudo-instruction has the words of its
expansion. Numbers are taken to fit: `assemble` refuses those that do not. -/
def basicWord : AsmLine → List TWord
  | .feed b => [0x80000#20 ||| BitVec.ofNat 20 b]
  | .init => [0x90001#20]
  | .ctlNop => [0x90000#20]
  | .wr r d => [(1#20 <<< 19) ||| (r.addr.setWidth 20 <<< 16) ||| BitVec.ofNat 20 d]
  | .rd r => [r.addr.setWidth 20 <<< 16]
  | .rdCrc => [0x20000#20]
  | .rdSum => [0x30000#20]
  | .rdCrcl => [0x40000#20]
  | .rdCrch => [0x50000#20]
  | .nop | .feeds _ | .crc16 _ | .cksum8 _ | .rdTrailer => []

/-- The words of a source line, or the refusal of R46. -/
def assemble (l : AsmLine) : Except AsmError (List TWord) :=
  if l.wellFormed then .ok ((expand l).flatMap basicWord) else .error .operandTooLarge

/-- The words of a program, one transaction per line (R7, R46); the first refusal stops it. -/
def assembleAll : List AsmLine → Except AsmError (List TWord)
  | [] => .ok []
  | l :: ls => do return (← assemble l) ++ (← assembleAll ls)

/-- The value of a decimal or hexadecimal digit; none for any other character. -/
def digitValue (c : Char) : Option Nat :=
  if '0' ≤ c ∧ c ≤ '9' then some (c.toNat - '0'.toNat)
  else if 'a' ≤ c ∧ c ≤ 'f' then some (c.toNat - 'a'.toNat + 10)
  else if 'A' ≤ c ∧ c ≤ 'F' then some (c.toNat - 'A'.toNat + 10)
  else none

/-- The digits of a number in a base, added to what stands before them. -/
def readDigits (base : Nat) : Nat → List Char → Option Nat
  | n, [] => some n
  | n, c :: cs =>
    match digitValue c with
    | some d => if d < base then readDigits base (n * base + d) cs else none
    | none => none

/-- A number, "decimal or `0x` hexadecimal" (R46). -/
def readNumber : List Char → Except AsmError Nat
  | [] => .error .badNumber
  | '0' :: 'x' :: c :: cs => (readDigits 16 0 (c :: cs)).elim (.error .badNumber) .ok
  | c :: cs => (readDigits 10 0 (c :: cs)).elim (.error .badNumber) .ok

/-- A register: a name of R46 for addresses 0 to 7, or the bare number. Names are taken in capitals only (log
entry 8). -/
def readReg (cs : List Char) : Except AsmError Reg :=
  match cs with
  | ['D', 'A', 'T', 'A'] => .ok .data
  | ['C', 'T', 'R', 'L'] => .ok .ctrl
  | ['C', 'R', 'C'] => .ok .crc
  | ['S', 'U', 'M'] => .ok .sum
  | ['C', 'R', 'C', 'L'] => .ok .crcl
  | ['C', 'R', 'C', 'H'] => .ok .crch
  | ['R', 'S', 'V', '6'] => .ok .rsv6
  | ['R', 'S', 'V', '7'] => .ok .rsv7
  | _ =>
    match readNumber cs with
    | .ok n => if n < 8 then .ok (Reg.ofAddr (BitVec.ofNat 3 n)) else .error .badRegister
    | .error _ => .error .badRegister

/-- Text without the spaces at its front. -/
def dropSpaces (cs : List Char) : List Char := cs.dropWhile (· == ' ')

/-- Text without the spaces at either end. -/
def trimSpaces (cs : List Char) : List Char := (dropSpaces (dropSpaces cs).reverse).reverse

/-- The pieces of a text between its commas: one more than it has commas. -/
def splitCommas : List Char → List (List Char)
  | [] => [[]]
  | c :: cs =>
    match splitCommas cs with
    | [] => [[c]]
    | p :: ps => if c == ',' then [] :: p :: ps else (c :: p) :: ps

/-- The operands of a line, separated by commas; no text is no operand (log entry 8). -/
def readOperands (cs : List Char) : List (List Char) :=
  match trimSpaces cs with
  | [] => []
  | c :: rest => (splitCommas (c :: rest)).map trimSpaces

/-- Each text as a number. -/
def readNumbers : List (List Char) → Except AsmError (List Nat)
  | [] => .ok []
  | t :: ts => do return (← readNumber t) :: (← readNumbers ts)

/-- A line that takes no operand. -/
def plainLine (l : AsmLine) : List (List Char) → Except AsmError AsmLine
  | [] => .ok l
  | _ :: _ => .error .operandCount

/-- A source line's text into its parts: a mnemonic, in capitals or not (R46), then its operands. -/
def parseLine (cs : List Char) : Except AsmError AsmLine :=
  let text := trimSpaces cs
  let ops := readOperands (text.dropWhile (· != ' '))
  match (text.takeWhile (· != ' ')).map Char.toUpper with
  | ['F', 'E', 'E', 'D'] =>
    match ops with
    | [t] => do return .feed (← readNumber t)
    | _ => .error .operandCount
  | ['I', 'N', 'I', 'T'] => plainLine .init ops
  | ['C', 'T', 'L', 'N', 'O', 'P'] => plainLine .ctlNop ops
  | ['W', 'R'] =>
    match ops with
    | [r, t] => do return .wr (← readReg r) (← readNumber t)
    | _ => .error .operandCount
  | ['R', 'D'] =>
    match ops with
    | [r] => do return .rd (← readReg r)
    | _ => .error .operandCount
  | ['R', 'D', 'C', 'R', 'C'] => plainLine .rdCrc ops
  | ['R', 'D', 'S', 'U', 'M'] => plainLine .rdSum ops
  | ['R', 'D', 'C', 'R', 'C', 'L'] => plainLine .rdCrcl ops
  | ['R', 'D', 'C', 'R', 'C', 'H'] => plainLine .rdCrch ops
  | ['N', 'O', 'P'] => plainLine .nop ops
  | ['F', 'E', 'E', 'D', 'S'] => do return .feeds (← readNumbers ops)
  | ['C', 'R', 'C', '1', '6'] => do return .crc16 (← readNumbers ops)
  | ['C', 'K', 'S', 'U', 'M', '8'] => do return .cksum8 (← readNumbers ops)
  | ['R', 'D', 'T', 'R', 'A', 'I', 'L', 'E', 'R'] => plainLine .rdTrailer ops
  | _ => .error .unknownMnemonic

/-- The words of one line of source text (R46, R47). -/
def assembleText (cs : List Char) : Except AsmError (List TWord) := do assemble (← parseLine cs)

end Sys2Proof.Machine
end

