-- ==== Sys2Proof/Machine/Wire.lean ====
section
/-! DEFINITION. The frames of the wire: which bytes are covered, and the trailer's byte order (spec/20_memory.md R30
to R33, spec/90_conflicts.md C1 and C2). The block transmits and compares nothing (R33, R105): these say what a
master feeds it and how a master serialises what it reads. -/

namespace Sys2Proof.Machine

/-- The bytes of a legacy frame before its checksum: "`0xA5, hostAddr(0x80), command, dataLen(0x08), data[8]`" (R31). -/
def legacyBody (command : Byte) (data : Vector Byte 8) : List Byte :=
  [0xA5#8, 0x80#8, command, 0x08#8] ++ data.toList

/-- A legacy frame, 13 bytes: its body and the additive checksum of its body (R31). -/
def legacyFrame (command : Byte) (data : Vector Byte 8) : List Byte :=
  legacyBody command data ++ [additiveChecksum (legacyBody command data)]

/-- The bytes the legacy checksum covers: frame bytes 0 to 11 (R31; the half-open reading, C2). -/
def legacyCovered (frame : List Byte) : List Byte := frame.take 12

/-- The two trailer bytes of a CRC value in wire order: `CRC[7:0]`, then `CRC[15:8]` (R33, C1). -/
def crcTrailer (v : Half) : List Byte := [crcLow v, crcHigh v]

/-- A BLE frame: its bytes before the trailer, then the CRC trailer over them (R32, R33). -/
def bleFrame (body : List Byte) : List Byte := body ++ crcTrailer (crc16Modbus body)

/-- The bytes the CRC trailer covers: "all frame bytes preceding the 2-byte trailer" (R32). -/
def bleCovered (frame : List Byte) : List Byte := frame.take (frame.length - 2)

/-- The legacy frame's checksum byte, frame byte 12, against the checksum of the covered bytes: the comparison that
is the master's (R105). -/
def legacyChecksumMatches (frame : List Byte) : Bool :=
  frame[12]? == some (additiveChecksum (legacyCovered frame))

/-- The BLE frame's trailer against the CRC of the covered bytes: the comparison that is the master's (R105). -/
def bleTrailerMatches (frame : List Byte) : Bool :=
  frame.drop (frame.length - 2) == crcTrailer (crc16Modbus (bleCovered frame))

end Sys2Proof.Machine
end

