-- ==== Sys2Proof/Safety.lean ====
section
/-! DEFINITION. The terms claims about runs use: the history behind the accumulators (spec/40_accumulate.md R66), runs
of several steps, and the software contract (spec/42_unmapped.md R90). -/

namespace Sys2Proof

open Sys2Proof.Machine

/-- The bytes fed since the last INIT or reset, after one more input (R66). `none`: power was lost, and neither a
reset nor an INIT has come since, so the accumulators are the function of no known bytes (R15, R112). -/
def fedAfter (i : Input) (fed : Option (List Byte)) : Option (List Byte) :=
  match i with
  | .edge p =>
    match edgeAction p with
    | .reset => some []
    | .idle => fed
    | .transaction T =>
      match decode T with
      | .init => some []
      | .feed b => fed.map (· ++ [b])
      | .ctlNop | .wrCrc _ | .wrSum _ | .wrCrcl _ | .wrCrch _ | .wrRsv6 _ | .wrRsv7 _
      | .rdData | .rdCtl | .rdCrc | .rdSum | .rdCrcl | .rdCrch | .rdRsv6 | .rdRsv7 => fed
  | .noEdge _ => fed
  | .powerLoss => none
  | .undriven => fed

/-- "Then `CRC = crc16Modbus(bs)` and `SUM = additiveChecksum(bs)`" (R66), where the bytes are known. -/
def Accumulates (fed : Option (List Byte)) (s : State) : Prop :=
  ∀ bs, fed = some bs → s.crc = crc16Modbus bs ∧ s.sum = additiveChecksum bs

/-- `n` steps, stopping at the first fault or refusal. -/
def steps : Nat → State → Host.Outcome State Fault Refusal
  | 0, s => .next s
  | n + 1, s =>
    match step s with
    | .next t => steps n t
    | .fault r => .fault r
    | .refused r => .refused r

/-- An input the spec gives a step for: all but an edge whose ports are not driven (R23). -/
def inSpec : Input → Bool
  | .edge _ => true
  | .noEdge _ => true
  | .powerLoss => true
  | .undriven => false

/-- Whether a transaction is one of the writers of the accumulators, FEED and INIT (R10, R11). -/
def writesAccumulators : Instr → Bool
  | .feed _ => true
  | .init => true
  | .ctlNop | .wrCrc _ | .wrSum _ | .wrCrcl _ | .wrCrch _ | .wrRsv6 _ | .wrRsv7 _
  | .rdData | .rdCtl | .rdCrc | .rdSum | .rdCrcl | .rdCrch | .rdRsv6 | .rdRsv7 => false

/-- What one transaction leaves in CRC and SUM, from what they held (R62, R63, and R28 for all others). -/
def afterTransaction (cm : Half × Byte) (T : TWord) : Half × Byte :=
  match decode T with
  | .feed b => (crcStep cm.1 b, sumStep cm.2 b)
  | .init => (crcInit, sumInit)
  | .ctlNop | .wrCrc _ | .wrSum _ | .wrCrcl _ | .wrCrch _ | .wrRsv6 _ | .wrRsv7 _
  | .rdData | .rdCtl | .rdCrc | .rdSum | .rdCrcl | .rdCrch | .rdRsv6 | .rdRsv7 => cm

/-- What a sequence of transactions leaves in CRC and SUM, taken in the order issued (R35). -/
def afterTransactions (cm : Half × Byte) (ws : List TWord) : Half × Byte := ws.foldl afterTransaction cm

/-- The bytes a sequence of transactions feeds, in order (R35, R66). -/
def bytesFed (ws : List TWord) : List Byte :=
  ws.filterMap fun T =>
    match decode T with
    | .feed b => some b
    | .init | .ctlNop | .wrCrc _ | .wrSum _ | .wrCrcl _ | .wrCrch _ | .wrRsv6 _ | .wrRsv7 _
    | .rdData | .rdCtl | .rdCrc | .rdSum | .rdCrcl | .rdCrch | .rdRsv6 | .rdRsv7 => none

/-- The software contract of R90 on one transaction: reserved write-data bits are 0, and none of WRRSV6, WRRSV7,
RDRSV6, RDRSV7. A program that breaks it still runs: the block's answer is defined (log entry 6). -/
def conforms (T : TWord) : Bool :=
  match decode T with
  | .feed _ => dField T &&& 0xFF00#16 == 0#16
  | .init | .ctlNop => dField T &&& 0xFFFE#16 == 0#16
  | .wrRsv6 _ | .wrRsv7 _ | .rdRsv6 | .rdRsv7 => false
  | .wrCrc _ | .wrSum _ | .wrCrcl _ | .wrCrch _
  | .rdData | .rdCtl | .rdCrc | .rdSum | .rdCrcl | .rdCrch => true

end Sys2Proof
end

