-- ==== Sys2Proof/Certificates/Slice0/Obligations.lean ====
section
/-! DEFINITION. The statements for the provers. They come from the numbered rules of spec/, file by file. -/

open Sys2Proof Sys2Proof.Machine

/-! ## Reset, and the step at an edge -/

/-- R10, R11, R121: what reset leaves in the block's registers and on its port. The other two fields of State are the
model's own (log entries 2 and 5), and nothing is said of them. -/
def Obligations.ResetStateHoldsTheSpecsValues : Prop :=
  State.reset.crc = 0xFFFF#16 ∧ State.reset.sum = 0x00#8 ∧ State.reset.rdata = 0x0000#16 ∧
    readSlot .ctrl State.reset = 0x0000#16

/-- R120: at an edge with `rst = 1` both accumulators take their start values, whatever transaction stands in the same
cycle, and `rdata = 0x0000`; a reset asserted and released between edges has no effect on the accumulators; what INIT
leaves in the accumulators is the same, and it is the value of both functions over no bytes. -/
def Obligations.ResetEdgeDiscardsAndClears : Prop :=
  (∀ (s : State) (p : Ports) (rest : List Input), p.rst = true → s.inputs = .edge p :: rest →
      step s = .next { s with crc := 0xFFFF#16, sum := 0x00#8, rdata := 0x0000#16, inputs := rest } ∧
        rdataDuring p s = 0x0000#16) ∧
    (∀ (s : State) (p : Ports) (rest : List Input), s.inputs = .noEdge p :: rest →
      ∃ t, step s = .next t ∧ t.crc = s.crc ∧ t.sum = s.sum ∧ t.inputs = rest) ∧
    (∀ s : State, ∃ t, exec .init s = .next t ∧ t.crc = 0xFFFF#16 ∧ t.sum = 0x00#8) ∧
    crc16Modbus [] = 0xFFFF#16 ∧ additiveChecksum [] = 0x00#8

/-- The model's choice (log entry 1) beside R112 and R120: an interval without an edge leaves the whole state as it was,
`rdata` among it, whatever the ports carry meanwhile; only the input is taken off the list. -/
def Obligations.IntervalWithoutEdgeLeavesTheWholeState : Prop :=
  ∀ (s : State) (p : Ports) (rest : List Input), s.inputs = .noEdge p :: rest →
    step s = .next { s with inputs := rest }

/-- R21: the priority at a rising edge. Reset first; else a write transaction applies the addressed register's rule;
else, a read or an idle cycle, `CRC` and `SUM` keep their values. -/
def Obligations.EdgeFollowsThePriority : Prop :=
  ∀ (s : State) (p : Ports) (rest : List Input), s.inputs = .edge p :: rest →
    (p.rst = true → step s = .next (applyReset { s with inputs := rest })) ∧
    (p.rst = false → p.sel = true → p.we = true →
      step s = exec (decode p.word) { s with inputs := rest } ∧
      (decode p.word = .feed (p.wdata.extractLsb' 0 8) ↔ p.addr = 0#3) ∧
      (decode p.word = .init ↔ p.addr = 1#3 ∧ p.wdata.getLsbD 0 = true)) ∧
    (p.rst = false → (p.sel = false ∨ p.we = false) →
      ∃ t, step s = .next t ∧ t.crc = s.crc ∧ t.sum = s.sum ∧ t.inputs = rest ∧ t.draws = s.draws)

/-- A step runs the decoded transaction: the step at a cycle that presents a transaction is `exec` of what its word
decodes to, on the state with that cycle taken off the inputs, and nothing else is done around it. The second clause
says so for a word placed by `State.withFetchWord`. -/
def Obligations.StepRunsTheDecodedTransaction : Prop :=
  (∀ (s : State) (p : Ports) (rest : List Input), p.rst = false → p.sel = true → s.inputs = .edge p :: rest →
      step s = exec (decode p.word) { s with inputs := rest }) ∧
    (∀ (s : State) (i : Instr) (nbits w : Nat), decodeTableWord nbits w = some i →
      step (s.withFetchWord nbits w) = exec i s)

/-- R22: in a read cycle without reset `rdata` carries the addressed slot's value from the state at the start of the
cycle; in every other cycle 0x0000. -/
def Obligations.ReadDataComesFromTheStartOfTheCycle : Prop :=
  ∀ (s : State) (p : Ports) (rest : List Input), s.inputs = .edge p :: rest →
    ∃ t, step s = .next t ∧ t.rdata = rdataDuring p s ∧
      t.rdata =
        (if p.sel = true ∧ p.we = false ∧ p.rst = false then readSlot (Reg.ofAddr p.addr) s else 0x0000#16)

/-- R24, R25, R26: the register map. A read of each of the eight addresses leaves the accumulators and drives the
value of the map's read column; a write of DATA feeds the low byte, a write of CTRL with bit 0 = 1 is INIT, and every
other write changes neither accumulator. DATA and CTRL have no storage: they read 0x0000 in every state. -/
def Obligations.RegisterMapReadsAndWrites : Prop :=
  ∀ (s : State) (a : Addr) (d : Half) (rest : List Input),
    (s.inputs = .edge ⟨false, true, false, a, d⟩ :: rest →
      step s = .next { s with
        inputs := rest
        rdata :=
          if a = 2#3 then s.crc
          else if a = 3#3 then s.sum.setWidth 16
          else if a = 4#3 then (s.crc.extractLsb' 0 8).setWidth 16
          else if a = 5#3 then (s.crc.extractLsb' 8 8).setWidth 16
          else 0x0000#16 }) ∧
    (s.inputs = .edge ⟨false, true, true, a, d⟩ :: rest →
      step s = .next
        (if a = 0#3 then
          { s with
            inputs := rest, rdata := 0x0000#16, crc := crcStep s.crc (d.extractLsb' 0 8)
            sum := sumStep s.sum (d.extractLsb' 0 8) }
        else if a = 1#3 ∧ d.getLsbD 0 = true then
          { s with inputs := rest, rdata := 0x0000#16, crc := 0xFFFF#16, sum := 0x00#8 }
        else { s with inputs := rest, rdata := 0x0000#16 }))

/-! ## The two engines -/

/-- R60: `crc_step` is the eight-fold loop of the rule; the bit consumed in iteration k is `b[k]`, so it equals the
serial form that takes the byte's bits least significant first; and it gives 0xB9D7 for the six bytes of the
read-info command. -/
def Obligations.CrcStepIsTheReflectedLoop : Prop :=
  (∀ (c : Half) (b : Byte),
      crcStep c b =
        (List.range 8).foldl (fun (r : Half) (_ : Nat) => if r.getLsbD 0 then (r >>> 1) ^^^ 0xA001#16 else r >>> 1)
          (c ^^^ b.setWidth 16)) ∧
    (∀ (c : Half) (b : Byte),
      crcStep c b =
        (List.range 8).foldl
          (fun (r : Half) (k : Nat) => if (r.getLsbD 0 ^^ b.getLsbD k) then (r >>> 1) ^^^ 0xA001#16 else r >>> 1) c) ∧
    crc16Modbus [0xD2#8, 0x03#8, 0x00#8, 0x00#8, 0x00#8, 0x3E#8] = 0xB9D7#16

/-- R61: `sum_step` is the nine-bit sum's low eight bits, the sum modulo 256. -/
def Obligations.SumStepAddsModulo256 : Prop :=
  ∀ s b : Byte,
    sumStep s b = (s.setWidth 9 + b.setWidth 9).extractLsb' 0 8 ∧
      (sumStep s b).toNat = (s.toNat + b.toNat) % 256

/-- R65: both functions are the folds of their step functions, with their values over no bytes; the checksum is the
sum of all bytes modulo 256. -/
def Obligations.EnginesFoldTheirStepFunctions : Prop :=
  (∀ bs : List Byte, crc16Modbus bs = bs.foldl crcStep 0xFFFF#16) ∧
    (∀ bs : List Byte, additiveChecksum bs = bs.foldl sumStep 0x00#8) ∧
    (∀ bs : List Byte, (additiveChecksum bs).toNat = (bs.map BitVec.toNat).sum % 256) ∧
    crc16Modbus [] = 0xFFFF#16 ∧ additiveChecksum [] = 0x00#8

/-- R67: linearity over GF(2), the byte-table form, two entries of the table, and the zero fixed point. -/
def Obligations.CrcStepLinearAndTableLaws : Prop :=
  (∀ (c₁ c₂ : Half) (b₁ b₂ : Byte),
      crcStep (c₁ ^^^ c₂) (b₁ ^^^ b₂) = crcStep c₁ b₁ ^^^ crcStep c₂ b₂) ∧
    (∀ (c : Half) (b : Byte),
      crcStep c b = (c >>> 8) ^^^ crcStep 0x0000#16 ((c ^^^ b.setWidth 16).extractLsb' 0 8)) ∧
    crcStep 0x0000#16 0x00#8 = 0x0000#16 ∧ crcStep 0x0000#16 0x80#8 = 0xA001#16

/-- R68: feeding a sequence together with its trailer in wire order leaves 0x0000; the opposite order does not, for
the read-info command. -/
def Obligations.FrameWithTrailerLeavesZeroResidue : Prop :=
  (∀ bs : List Byte,
      crc16Modbus (bs ++ [(crc16Modbus bs).extractLsb' 0 8, (crc16Modbus bs).extractLsb' 8 8]) = 0x0000#16) ∧
    (let bs := [0xD2#8, 0x03#8, 0x00#8, 0x00#8, 0x00#8, 0x3E#8]
     crc16Modbus (bs ++ [(crc16Modbus bs).extractLsb' 8 8, (crc16Modbus bs).extractLsb' 0 8]) = 0x8CAD#16)

/-- R69: the laws of the additive checksum: its range, invariance under permutation, concatenation, and the byte
that restores SUM. -/
def Obligations.ChecksumLaws : Prop :=
  (∀ bs : List Byte, (additiveChecksum bs).toNat ≤ 255) ∧
    (∀ bs cs : List Byte, List.Perm bs cs → additiveChecksum bs = additiveChecksum cs) ∧
    (∀ bs cs : List Byte,
      (additiveChecksum (bs ++ cs)).toNat =
        ((additiveChecksum bs).toNat + (additiveChecksum cs).toNat) % 256) ∧
    (∀ s b : Byte, sumStep (sumStep s b) (BitVec.ofNat 8 ((256 - b.toNat) % 256)) = s)

/-! ## The accumulate family -/

/-- R62, FEED: its words; its effect on the whole state, which is a next state in every state; the corner cases and
the example of the rule, but for its remark on fixed points (`OnlyZeroIsFixedByAZeroByte`, log entry 9). -/
def Obligations.FeedUpdatesBothEngines : Prop :=
  (∀ T : TWord, T &&& 0xF0000#20 = 0x80000#20 → decode T = .feed (T.extractLsb' 0 8)) ∧
    (∀ (b : Byte) (s : State),
      exec (.feed b) s =
        .next { s with crc := crcStep s.crc b, sum := sumStep s.sum b, rdata := 0x0000#16 }) ∧
    crcStep 0xFFFF#16 0x00#8 = 0x40BF#16 ∧ crcStep 0x0000#16 0x00#8 = 0x0000#16 ∧
    sumStep 0xFF#8 0x01#8 = 0x00#8 ∧
    decode 0x8AB12#20 = decode 0x80012#20 ∧
    (∃ (b : Byte) (s t u : State), exec (.feed b) s = .next t ∧ exec (.feed b) t = .next u ∧ u ≠ t) ∧
    (∀ s : State, s.crc = 0xFFFF#16 → s.sum = 0x00#8 →
      exec (decode 0x800D2#20) s = .next { s with crc := 0x1D3F#16, sum := 0xD2#8, rdata := 0x0000#16 })

/-- R62's remark, as it is written: a FEED of 0x00 changes `CRC` in every state but `CRC = 0x0000`. It does not follow
from R60 and is expected to fail (log entry 9). -/
def Obligations.OnlyZeroIsFixedByAZeroByte : Prop :=
  ∀ c : Half, crcStep c 0x00#8 = c → c = 0x0000#16

/-- What R60 gives in place of that remark: a FEED of 0x00 leaves `CRC` as it was in exactly two states, 0x0000 and
0xC001 (log entry 9). -/
def Obligations.ZeroByteFixesExactlyTwoValues : Prop :=
  ∀ c : Half, crcStep c 0x00#8 = c ↔ c = 0x0000#16 ∨ c = 0xC001#16

/-- R63, INIT: its words, with any reserved bits; its effect; it changes nothing in the state it produces; a read of
CTRL after it returns 0x0000; the example of the rule is the effect at `CRC = 0xB9D7, SUM = 0x13`. -/
def Obligations.InitRestoresTheStartValues : Prop :=
  (∀ T : TWord, T &&& 0xF0001#20 = 0x90001#20 → decode T = .init) ∧
    (∀ s : State,
      let t : State := { s with crc := 0xFFFF#16, sum := 0x00#8, rdata := 0x0000#16 }
      exec .init s = .next t ∧ exec .init t = .next t ∧ exec .rdCtl t = .next t) ∧
    decode 0x9FFFF#20 = .init

/-- R64, CTLNOP: its words, which have bit 0 = 0, and no state change. -/
def Obligations.ControlWriteWithoutInitBitDoesNothing : Prop :=
  (∀ T : TWord, T &&& 0xF0001#20 = 0x90000#20 → decode T = .ctlNop) ∧
    (∀ s : State, exec .ctlNop s = .next { s with rdata := 0x0000#16 }) ∧
    decode 0x9FFFE#20 = .ctlNop

/-! ## The readback family -/

/-- R70, RDCRC: its words; its effect; the CRC of the empty sequence after INIT and after reset; 0x0000 after a frame
and its trailer in wire order; the integer value for any bytes, and the rule's example. -/
def Obligations.ReadCrcReturnsTheWholeRegister : Prop :=
  (∀ T : TWord, T &&& 0xF0000#20 = 0x20000#20 → decode T = .rdCrc) ∧
    (∀ s : State, exec .rdCrc s = .next { s with rdata := s.crc }) ∧
    (∀ s t : State, exec .init s = .next t ∨ t = applyReset s →
      exec .rdCrc t = .next { t with rdata := 0xFFFF#16 }) ∧
    (∀ (s : State) (bs : List Byte), s.crc = crc16Modbus (bs ++ crcTrailer (crc16Modbus bs)) →
      exec .rdCrc s = .next { s with rdata := 0x0000#16 }) ∧
    (∀ (s : State) (bs : List Byte), s.crc = crc16Modbus bs →
      exec .rdCrc s = .next { s with rdata := crc16Modbus bs }) ∧
    (∀ s : State, s.crc = crc16Modbus [0xD2#8, 0x03#8, 0x00#8, 0x00#8, 0x00#8, 0x3E#8] →
      exec .rdCrc s = .next { s with rdata := 0xB9D7#16 })

/-- R71, RDSUM: its words; its effect; the upper byte is always 0x00; 0x0000 after INIT and after reset; the rule's
example. -/
def Obligations.ReadSumReturnsTheZeroExtendedSum : Prop :=
  (∀ T : TWord, T &&& 0xF0000#20 = 0x30000#20 → decode T = .rdSum) ∧
    (∀ s : State, exec .rdSum s = .next { s with rdata := s.sum.setWidth 16 }) ∧
    (∀ s t : State, exec .rdSum s = .next t → t.rdata.extractLsb' 8 8 = 0x00#8) ∧
    (∀ s t : State, exec .init s = .next t ∨ t = applyReset s →
      exec .rdSum t = .next { t with rdata := 0x0000#16 }) ∧
    (∀ s : State,
      s.sum = additiveChecksum [0xA5#8, 0x80#8, 0x90#8, 0x08#8, 0x00#8, 0x7D#8, 0x75#8, 0x30#8, 0x03#8, 0x84#8,
        0x00#8, 0x00#8] →
      exec .rdSum s = .next { s with rdata := 0x0066#16 })

/-- R72 and R73, RDCRCL and RDCRCH: their words; their effects; 0x00FF after INIT for both; the example after the
read-info command's six bytes; RDCRCH returns 0x0000 after a residue-zero frame. RDCRCL and then RDCRCH: with one
transaction between them that is neither FEED nor INIT they give the two halves of one CRC; with a FEED, an INIT or a
reset edge between them the low half is of the state before it and the high half of the state after it, and for each
of the three there is a state in which the pair is neither state's CRC. -/
def Obligations.ReadCrcHalvesReturnTheBytes : Prop :=
  (∀ T : TWord, T &&& 0xF0000#20 = 0x40000#20 → decode T = .rdCrcl) ∧
    (∀ T : TWord, T &&& 0xF0000#20 = 0x50000#20 → decode T = .rdCrch) ∧
    (∀ s : State, exec .rdCrcl s = .next { s with rdata := (s.crc.extractLsb' 0 8).setWidth 16 }) ∧
    (∀ s : State, exec .rdCrch s = .next { s with rdata := (s.crc.extractLsb' 8 8).setWidth 16 }) ∧
    (∀ s t : State, exec .init s = .next t →
      exec .rdCrcl t = .next { t with rdata := 0x00FF#16 } ∧
        exec .rdCrch t = .next { t with rdata := 0x00FF#16 }) ∧
    (∀ s : State, s.crc = crc16Modbus [0xD2#8, 0x03#8, 0x00#8, 0x00#8, 0x00#8, 0x3E#8] →
      exec .rdCrcl s = .next { s with rdata := 0x00D7#16 } ∧
        exec .rdCrch s = .next { s with rdata := 0x00B9#16 }) ∧
    (∀ (s : State) (bs : List Byte), s.crc = crc16Modbus (bs ++ crcTrailer (crc16Modbus bs)) →
      exec .rdCrch s = .next { s with rdata := 0x0000#16 }) ∧
    (∀ (i : Instr) (s t u v : State), exec .rdCrcl s = .next t → writesAccumulators i = false → exec i t = .next u →
      exec .rdCrch u = .next v → (v.rdata.extractLsb' 0 8 ++ t.rdata.extractLsb' 0 8 : Half) = s.crc) ∧
    (∀ (b : Byte) (s : State), ∃ t u v, exec .rdCrcl s = .next t ∧ exec (.feed b) t = .next u ∧
      exec .rdCrch u = .next v ∧ t.rdata = (s.crc.extractLsb' 0 8).setWidth 16 ∧
      v.rdata = ((crcStep s.crc b).extractLsb' 8 8).setWidth 16) ∧
    (∀ s : State, ∃ t u v, exec .rdCrcl s = .next t ∧ exec .init t = .next u ∧
      exec .rdCrch u = .next v ∧ t.rdata = (s.crc.extractLsb' 0 8).setWidth 16 ∧ v.rdata = 0x00FF#16) ∧
    (∀ s : State, ∃ t v, exec .rdCrcl s = .next t ∧ exec .rdCrch (applyReset t) = .next v ∧
      t.rdata = (s.crc.extractLsb' 0 8).setWidth 16 ∧ v.rdata = 0x00FF#16) ∧
    (∃ s t u v : State, exec .rdCrcl s = .next t ∧ exec (.feed 0x02#8) t = .next u ∧ exec .rdCrch u = .next v ∧
      (v.rdata.extractLsb' 0 8 ++ t.rdata.extractLsb' 0 8 : Half) ≠ s.crc ∧
      (v.rdata.extractLsb' 0 8 ++ t.rdata.extractLsb' 0 8 : Half) ≠ u.crc) ∧
    (∃ s t u v : State, exec .rdCrcl s = .next t ∧ (exec .init t = .next u ∧ u = applyReset t) ∧
      exec .rdCrch u = .next v ∧
      (v.rdata.extractLsb' 0 8 ++ t.rdata.extractLsb' 0 8 : Half) ≠ s.crc ∧
      (v.rdata.extractLsb' 0 8 ++ t.rdata.extractLsb' 0 8 : Half) ≠ u.crc)

/-- R74: for every state, RDCRC returns the halves RDCRCH and RDCRCL return, the former above the latter. -/
def Obligations.ReadCrcIsBothHalvesTogether : Prop :=
  ∀ s : State, ∃ t h l,
    exec .rdCrc s = .next t ∧ exec .rdCrch s = .next h ∧ exec .rdCrcl s = .next l ∧
      t.rdata = (h.rdata.extractLsb' 0 8 ++ l.rdata.extractLsb' 0 8 : Half)

/-! ## The unmapped family -/

/-- R80 to R83, WRCRC, WRSUM, WRCRCL, WRCRCH: their words, and no state change whatever the data: the next state is
the same but for `rdata`, which is 0x0000 in a write cycle, and every slot reads as before. -/
def Obligations.WritesOfResultSlotsAreIgnored : Prop :=
  (∀ T : TWord,
      (T &&& 0xF0000#20 = 0xA0000#20 → decode T = .wrCrc (T.extractLsb' 0 16)) ∧
      (T &&& 0xF0000#20 = 0xB0000#20 → decode T = .wrSum (T.extractLsb' 0 16)) ∧
      (T &&& 0xF0000#20 = 0xC0000#20 → decode T = .wrCrcl (T.extractLsb' 0 16)) ∧
      (T &&& 0xF0000#20 = 0xD0000#20 → decode T = .wrCrch (T.extractLsb' 0 16))) ∧
    (∀ (d : Half) (s : State),
      let t : State := { s with rdata := 0x0000#16 }
      exec (.wrCrc d) s = .next t ∧ exec (.wrSum d) s = .next t ∧ exec (.wrCrcl d) s = .next t ∧
        exec (.wrCrch d) s = .next t ∧ ∀ r : Reg, readSlot r t = readSlot r s)

/-- R88 and R89, WRRSV6 and WRRSV7: their words, no state change whatever the data, and the software contract is
broken by issuing them. -/
def Obligations.WritesOfReservedSlotsAreIgnored : Prop :=
  (∀ T : TWord,
      (T &&& 0xF0000#20 = 0xE0000#20 → decode T = .wrRsv6 (T.extractLsb' 0 16) ∧ conforms T = false) ∧
      (T &&& 0xF0000#20 = 0xF0000#20 → decode T = .wrRsv7 (T.extractLsb' 0 16) ∧ conforms T = false)) ∧
    (∀ (d : Half) (s : State),
      let t : State := { s with rdata := 0x0000#16 }
      exec (.wrRsv6 d) s = .next t ∧ exec (.wrRsv7 d) s = .next t ∧ ∀ r : Reg, readSlot r t = readSlot r s)

/-- R84 to R87, RDDATA, RDCTL, RDRSV6, RDRSV7: their words; they drive 0x0000 and change no state, also right after
a FEED or an INIT; reads of the two reserved slots break the software contract. -/
def Obligations.ReadsOfUnmappedSlotsReturnZero : Prop :=
  (∀ T : TWord,
      (T &&& 0xF0000#20 = 0x00000#20 → decode T = .rdData) ∧
      (T &&& 0xF0000#20 = 0x10000#20 → decode T = .rdCtl) ∧
      (T &&& 0xF0000#20 = 0x60000#20 → decode T = .rdRsv6 ∧ conforms T = false) ∧
      (T &&& 0xF0000#20 = 0x70000#20 → decode T = .rdRsv7 ∧ conforms T = false)) ∧
    (∀ s : State,
      let t : State := { s with rdata := 0x0000#16 }
      exec .rdData s = .next t ∧ exec .rdCtl s = .next t ∧ exec .rdRsv6 s = .next t ∧ exec .rdRsv7 s = .next t) ∧
    (∀ (b : Byte) (s t : State), exec (.feed b) s = .next t →
      exec .rdData t = .next { t with rdata := 0x0000#16 }) ∧
    (∀ s t : State, exec .init s = .next t → exec .rdCtl t = .next { t with rdata := 0x0000#16 })

/-- R90: what the software contract asks of a transaction. FEED and CTRL writes keep it exactly when their reserved
write-data bits are 0, the rows of addresses 6 and 7 never do, every other row does; and the words an assembler
writes for rows other than those keep it. -/
def Obligations.SoftwareContractAsksReservedBitsZero : Prop :=
  (∀ (d : Half),
      (conforms (tword true 0#3 d) = true ↔ d.extractLsb' 8 8 = 0x00#8) ∧
      (conforms (tword true 1#3 d) = true ↔ d.extractLsb' 1 15 = 0#15)) ∧
    (∀ (we : Bool) (d : Half), conforms (tword we 6#3 d) = false ∧ conforms (tword we 7#3 d) = false) ∧
    (∀ (we : Bool) (a : Addr) (d : Half), a = 2#3 ∨ a = 3#3 ∨ a = 4#3 ∨ a = 5#3 →
      conforms (tword we a d) = true) ∧
    (∀ (a : Addr) (d : Half), a = 0#3 ∨ a = 1#3 → conforms (tword false a d) = true) ∧
    (∀ i : Instr, conforms (encode i) = true ∨
      (∃ d, i = .wrRsv6 d) ∨ (∃ d, i = .wrRsv7 d) ∨ i = .rdRsv6 ∨ i = .rdRsv7)

/-! ## The transaction word -/

/-- R40: the word is the values of `we`, `addr` and `wdata`, and each is read back from its bits; every word is the
word of the cycle that presents it. -/
def Obligations.WordIsTheCyclesThreeFields : Prop :=
  (∀ (we : Bool) (a : Addr) (d : Half),
      (tword we a d).getLsbD 19 = we ∧ (tword we a d).extractLsb' 16 3 = a ∧
        (tword we a d).extractLsb' 0 16 = d) ∧
    (∀ T : TWord, (Ports.ofWord T).word = T ∧ (Ports.ofWord T).sel = true ∧ (Ports.ofWord T).rst = false) ∧
    (∀ w : Nat, w < 2 ^ 20 → decodeNumber w = .ok (decode (BitVec.ofNat 20 w))) ∧
    (∀ w : Nat, 2 ^ 20 ≤ w → decodeNumber w = .error .notTwentyBits)

/-- R43: every word selects exactly one row of the opcode map, the row of the instruction it decodes to. -/
def Obligations.EveryWordSelectsExactlyItsRow : Prop :=
  opcodeTable.length = 17 ∧
    ∀ T : TWord, (opcodeTable.filter fun row => row.selects T).map OpRow.mnemonic = [(decode T).mnemonic]

/-- The words of spec/95_test_vectors.md section 2.10 decode to the rows the spec gives there. -/
def Obligations.WrittenOutWordsDecodeAsListed : Prop :=
  decode 0x800D2#20 = .feed 0xD2#8 ∧ decode 0x8ABFF#20 = .feed 0xFF#8 ∧
    decode 0x90001#20 = .init ∧ decode 0x9FFFF#20 = .init ∧ decode 0x90000#20 = .ctlNop ∧
    decode 0x9FFFE#20 = .ctlNop ∧ decode 0xA1234#20 = .wrCrc 0x1234#16 ∧ decode 0xB0000#20 = .wrSum 0x0000#16 ∧
    decode 0xC00D7#20 = .wrCrcl 0x00D7#16 ∧ decode 0xD00B9#20 = .wrCrch 0x00B9#16 ∧
    decode 0x00000#20 = .rdData ∧ decode 0x1FFFF#20 = .rdCtl ∧ decode 0x2ABCD#20 = .rdCrc ∧
    decode 0x30000#20 = .rdSum ∧ decode 0x40000#20 = .rdCrcl ∧ decode 0x5FFFF#20 = .rdCrch ∧
    decode 0x60000#20 = .rdRsv6 ∧ decode 0x7FFFF#20 = .rdRsv7 ∧ decode 0xE0000#20 = .wrRsv6 0x0000#16 ∧
    decode 0xF0001#20 = .wrRsv7 0x0001#16

/-- Decode and encode agree on every instruction, with every operand. -/
def Obligations.DecodeOfEncodeIsTheInstruction : Prop :=
  ∀ i : Instr, decode (encode i) = i

/-- Encoding what a word decodes to gives the word back with the bits the block ignores cleared, all but the data
of the ignored writes, which the disassembler prints (R42, R46). -/
def Obligations.EncodeOfDecodeClearsIgnoredBits : Prop :=
  ∀ T : TWord,
    encode (decode T) =
      T &&& (if T.getLsbD 19 then
          (if T.extractLsb' 16 3 = 0#3 then 0xF00FF#20
          else if T.extractLsb' 16 3 = 1#3 then 0xF0001#20 else 0xFFFFF#20)
        else 0xF0000#20)

/-- R45: no word is illegal and none traps; the block ignores every reserved bit: two words with the same `w` and
`a`, the same byte if a FEED and the same bit 0 if a CTRL write, act alike in every state; and the rows WRCRC to
WRRSV7 and CTLNOP change no state. -/
def Obligations.ReservedBitsAreIgnored : Prop :=
  (∀ (T : TWord) (s : State), ∃ t, exec (decode T) s = .next t) ∧
    (∀ (T U : TWord) (s : State),
      T.extractLsb' 16 4 = U.extractLsb' 16 4 →
      (T.extractLsb' 16 4 = 8#4 → T.extractLsb' 0 8 = U.extractLsb' 0 8) →
      (T.extractLsb' 16 4 = 9#4 → T.getLsbD 0 = U.getLsbD 0) →
      exec (decode T) s = exec (decode U) s) ∧
    (∀ (T : TWord) (s : State),
      (10 ≤ (T.extractLsb' 16 4).toNat ∨ (T.extractLsb' 16 4 = 9#4 ∧ T.getLsbD 0 = false)) →
      ∃ t, exec (decode T) s = .next t ∧ t.crc = s.crc ∧ t.sum = s.sum)

/-! ## The assembler -/

/-- The words of source lines that are no pseudo-instructions, as the table of R46 writes them, and what they decode
to; the assembler's refusals; `WR DATA, d` is the word of `FEED d` when `d < 256`. -/
def Obligations.AssemblerWritesTheWordsOfTheTable : Prop :=
  (∀ b : Nat, b ≤ 255 →
      assemble (.feed b) = .ok [0x80000#20 ||| BitVec.ofNat 20 b] ∧
        decode (0x80000#20 ||| BitVec.ofNat 20 b) = .feed (BitVec.ofNat 8 b)) ∧
    (∀ b : Nat, 255 < b → assemble (.feed b) = .error .operandTooLarge) ∧
    (∀ (r : Reg) (d : Nat), d ≤ 0xFFFF →
      assemble (.wr r d) = .ok [tword true r.addr (BitVec.ofNat 16 d)]) ∧
    (∀ (r : Reg) (d : Nat), 0xFFFF < d → assemble (.wr r d) = .error .operandTooLarge) ∧
    (∀ r : Reg, assemble (.rd r) = .ok [tword false r.addr 0#16]) ∧
    (∀ d : Nat, d < 256 → assemble (.wr .data d) = assemble (.feed d)) ∧
    assemble .init = .ok [encode .init] ∧ assemble .ctlNop = .ok [encode .ctlNop] ∧
    assemble .rdCrc = .ok [encode .rdCrc] ∧ assemble .rdSum = .ok [encode .rdSum] ∧
    assemble .rdCrcl = .ok [encode .rdCrcl] ∧ assemble .rdCrch = .ok [encode .rdCrch]

/-- R47: the pseudo-instructions. Each assembles to the words of its expansion, and these, presented one per cycle
from any state, run to the result the rule's table gives: NOP changes no state, FEEDS feeds the bytes in order, CRC16
and CKSUM8 end with `rdata` at the source's functions of the bytes, RDTRAILER reads the two trailer bytes in wire
order. -/
def Obligations.PseudoInstructionsGiveTheirResults : Prop :=
  (assemble .nop = .ok [encode .ctlNop] ∧
      ∀ (s : State) (rest : List Input), s.inputs = transactions [encode .ctlNop] ++ rest →
        steps 1 s = .next { s with inputs := rest, rdata := 0x0000#16 }) ∧
    (∀ bs : List Byte, assemble (.feeds (bs.map BitVec.toNat)) = .ok (bs.map fun b => encode (.feed b)) ∧
      ∀ (s : State) (rest : List Input), s.inputs = transactions (bs.map fun b => encode (.feed b)) ++ rest →
        ∃ t, steps bs.length s = .next t ∧ t.crc = bs.foldl crcStep s.crc ∧ t.sum = bs.foldl sumStep s.sum ∧
          t.inputs = rest) ∧
    (∀ bs : List Byte,
      let ws := [encode .init] ++ (bs.map fun b => encode (.feed b)) ++ [encode .rdCrc]
      assemble (.crc16 (bs.map BitVec.toNat)) = .ok ws ∧
        ∀ (s : State) (rest : List Input), s.inputs = transactions ws ++ rest →
          ∃ t, steps (bs.length + 2) s = .next t ∧ t.rdata = crc16Modbus bs ∧ t.inputs = rest) ∧
    (∀ bs : List Byte,
      let ws := [encode .init] ++ (bs.map fun b => encode (.feed b)) ++ [encode .rdSum]
      assemble (.cksum8 (bs.map BitVec.toNat)) = .ok ws ∧
        ∀ (s : State) (rest : List Input), s.inputs = transactions ws ++ rest →
          ∃ t, steps (bs.length + 2) s = .next t ∧ t.rdata = (additiveChecksum bs).setWidth 16 ∧
            t.inputs = rest) ∧
    (assemble .rdTrailer = .ok [encode .rdCrcl, encode .rdCrch] ∧
      ∀ (s : State) (rest : List Input), s.inputs = transactions [encode .rdCrcl, encode .rdCrch] ++ rest →
        ∃ t u, steps 1 s = .next t ∧ steps 2 s = .next u ∧ u.inputs = rest ∧
          [t.rdata.setWidth 8, u.rdata.setWidth 8] = crcTrailer s.crc)

/-! ## The accumulators over a run -/

/-- R66, one step of it: where the accumulators are the two functions of the bytes fed since the last INIT or reset,
they are so after every step. The bytes are unknown (`none`) after a loss of power, until a reset or an INIT. -/
def Obligations.EveryStepKeepsTheAccumulatorLaw : Prop :=
  ∀ (s t : State) (fed : Option (List Byte)),
    Accumulates fed s → step s = .next t → Accumulates (fedAfter (takeInput s).1 fed) t

/-- The law of R66 holds right after reset, where no byte was fed. -/
def Obligations.AccumulatorLawHoldsAtReset : Prop :=
  Accumulates (some []) State.reset

/-- R66: a reset or an INIT, then any transactions but INIT: at their end `CRC = crc16Modbus(bs)` and
`SUM = additiveChecksum(bs)` for the bytes the FEEDs among them fed, in order. -/
def Obligations.AccumulatorsAreTheFunctionsOfTheFedBytes : Prop :=
  ∀ (s : State) (start : Ports) (ws : List TWord) (rest : List Input),
    (start.rst = true ∨ start.sel = true ∧ decode start.word = .init) →
    (∀ T ∈ ws, decode T ≠ .init) →
    s.inputs = .edge start :: transactions ws ++ rest →
    ∃ t, steps (ws.length + 1) s = .next t ∧ t.inputs = rest ∧
      t.crc = crc16Modbus (bytesFed ws) ∧ t.sum = additiveChecksum (bytesFed ws)

/-- R123's ground: without an INIT between two computations the accumulators hold the functions of the concatenation
of both byte sequences. -/
def Obligations.MissingInitConcatenatesTheSequences : Prop :=
  ∀ (s : State) (bs cs : List Byte) (rest : List Input),
    s.crc = crc16Modbus bs → s.sum = additiveChecksum bs →
    s.inputs = transactions (cs.map fun b => encode (.feed b)) ++ rest →
    ∃ t, steps cs.length s = .next t ∧ t.crc = crc16Modbus (bs ++ cs) ∧ t.sum = additiveChecksum (bs ++ cs)

/-- R125: RDCRCL and RDCRCH, with transactions between them that change no accumulator, read the two halves of one
CRC; with a FEED, an INIT or a reset between them the low half is the old state's and the high half the new one's. -/
def Obligations.SplitReadMixesOnlyAcrossAChange : Prop :=
  ∀ (s : State) (rest : List Input),
    (∀ ws : List TWord, (∀ T ∈ ws, writesAccumulators (decode T) = false) →
      s.inputs = transactions ([0x40000#20] ++ ws ++ [0x50000#20]) ++ rest →
      ∃ t u, steps 1 s = .next t ∧ steps (ws.length + 2) s = .next u ∧
        (u.rdata.setWidth 8 ++ t.rdata.setWidth 8 : Half) = s.crc) ∧
    (∀ b : Byte, s.inputs = transactions [0x40000#20, encode (.feed b), 0x50000#20] ++ rest →
      ∃ t u, steps 1 s = .next t ∧ steps 3 s = .next u ∧ t.rdata.setWidth 8 = crcLow s.crc ∧
        u.rdata.setWidth 8 = crcHigh (crcStep s.crc b)) ∧
    (s.inputs = transactions [0x40000#20, 0x90001#20, 0x50000#20] ++ rest →
      ∃ t u, steps 1 s = .next t ∧ steps 3 s = .next u ∧ t.rdata.setWidth 8 = crcLow s.crc ∧
        u.rdata.setWidth 8 = 0xFF#8) ∧
    (s.inputs = transactions [0x40000#20] ++ .edge Ports.reset :: transactions [0x50000#20] ++ rest →
      ∃ t u, steps 1 s = .next t ∧ steps 3 s = .next u ∧ t.rdata.setWidth 8 = crcLow s.crc ∧
        u.rdata.setWidth 8 = 0xFF#8)

/-- R126: a read sees every earlier FEED and INIT, with no cycle between. After any transactions, presented one per
cycle, a read of any address leaves `rdata` at the addressed slot's value in the state they leave, whose accumulators
are those of all of them taken in order. Then the shortest cases, the FEED or the INIT in the cycle just before, for
each of the four readback transactions. -/
def Obligations.ReadSeesTheWriteOfTheCycleBefore : Prop :=
  (∀ (s : State) (ws : List TWord) (a : Addr) (d : Half) (rest : List Input),
      s.inputs = transactions (ws ++ [tword false a d]) ++ rest →
      ∃ t u, steps ws.length s = .next t ∧ steps (ws.length + 1) s = .next u ∧
        (t.crc, t.sum) = afterTransactions (s.crc, s.sum) ws ∧ u.rdata = readSlot (Reg.ofAddr a) t ∧
        u.crc = t.crc ∧ u.sum = t.sum ∧ u.inputs = rest) ∧
    (∀ (s : State) (b : Byte) (rest : List Input),
      (s.inputs = transactions [encode (.feed b), encode .rdCrc] ++ rest →
        ∃ t, steps 2 s = .next t ∧ t.rdata = crcStep s.crc b) ∧
      (s.inputs = transactions [encode (.feed b), encode .rdSum] ++ rest →
        ∃ t, steps 2 s = .next t ∧ t.rdata = (sumStep s.sum b).setWidth 16) ∧
      (s.inputs = transactions [encode (.feed b), encode .rdCrcl] ++ rest →
        ∃ t, steps 2 s = .next t ∧ t.rdata = (crcLow (crcStep s.crc b)).setWidth 16) ∧
      (s.inputs = transactions [encode (.feed b), encode .rdCrch] ++ rest →
        ∃ t, steps 2 s = .next t ∧ t.rdata = (crcHigh (crcStep s.crc b)).setWidth 16)) ∧
    (∀ (s : State) (rest : List Input),
      (s.inputs = transactions [encode .init, encode .rdCrc] ++ rest →
        ∃ t, steps 2 s = .next t ∧ t.rdata = 0xFFFF#16) ∧
      (s.inputs = transactions [encode .init, encode .rdSum] ++ rest →
        ∃ t, steps 2 s = .next t ∧ t.rdata = 0x0000#16) ∧
      (s.inputs = transactions [encode .init, encode .rdCrcl] ++ rest →
        ∃ t, steps 2 s = .next t ∧ t.rdata = 0x00FF#16) ∧
      (s.inputs = transactions [encode .init, encode .rdCrch] ++ rest →
        ∃ t, steps 2 s = .next t ∧ t.rdata = 0x00FF#16))

/-! ## What holds of every transaction and every step -/

/-- R28: reads have no side effect and repeat; a write of DATA is not idempotent: the same byte twice is fed twice; a
second INIT changes nothing; writes to addresses 2 to 7 change neither accumulator. -/
def Obligations.SideEffectsOfEveryTransaction : Prop :=
  (∀ (T : TWord) (s : State), T.getLsbD 19 = false →
      ∃ t, exec (decode T) s = .next t ∧ t.crc = s.crc ∧ t.sum = s.sum ∧ exec (decode T) t = .next t) ∧
    (∀ (b : Byte) (s : State), ∃ t u, exec (.feed b) s = .next t ∧ exec (.feed b) t = .next u ∧
      u.crc = crcStep (crcStep s.crc b) b ∧ u.sum = sumStep (sumStep s.sum b) b) ∧
    (∀ s : State, ∃ t, exec .init s = .next t ∧ exec .init t = .next t) ∧
    (∀ (T : TWord) (s : State), T.getLsbD 19 = true → 2 ≤ (T.extractLsb' 16 3).toNat →
      ∃ t, exec (decode T) s = .next t ∧ t.crc = s.crc ∧ t.sum = s.sum)

/-- The frame of every transaction: the master's inputs and the count of draws are never changed by one, and all but
FEED and INIT leave both accumulators and every register slot as they were. -/
def Obligations.TransactionsLeaveTheRestUnchanged : Prop :=
  ∀ (i : Instr) (s t : State), exec i s = .next t →
    t.inputs = s.inputs ∧ t.draws = s.draws ∧
      (writesAccumulators i = false → t.crc = s.crc ∧ t.sum = s.sum ∧ ∀ r : Reg, readSlot r t = readSlot r s)

/-- The writers of R10 and R11, over the whole machine: where a step changes an accumulator, the input it met is a
reset edge, a FEED or INIT transaction, or a loss of power. -/
def Obligations.OnlyFeedInitAndResetWriteTheAccumulators : Prop :=
  ∀ s t : State, step s = .next t → (t.crc ≠ s.crc ∨ t.sum ≠ s.sum) →
    (takeInput s).1 = .powerLoss ∨
      ∃ p : Ports, (takeInput s).1 = .edge p ∧
        (p.rst = true ∨ (p.sel = true ∧ writesAccumulators (decode p.word) = true))

/-- R100: every transaction, in every state, has exactly one outcome, a next state: no fault, no refusal. -/
def Obligations.EveryTransactionCompletes : Prop :=
  (∀ (i : Instr) (s : State), ∃ t, exec i s = .next t) ∧
    (∀ (s : State) (p : Ports) (rest : List Input), s.inputs = .edge p :: rest → ∃ t, step s = .next t)

/-- The model's one stop (R23, log entry 4): a step faults exactly at an edge whose ports are not driven, and no step
is ever refused. -/
def Obligations.OnlyAnUndrivenEdgeStopsTheModel : Prop :=
  ∀ s : State,
    (∀ r, step s ≠ .refused r) ∧
      (step s = .fault .undrivenInput ↔ ∃ rest, s.inputs = .undriven :: rest) ∧
      (inSpec (takeInput s).1 = true → ∃ t, step s = .next t)

/-- R12: nothing but CRC and SUM survives an edge. Two states with the same accumulators that meet the same cycle
have the same accumulators and the same `rdata` after it, whatever else differs. -/
def Obligations.OnlyTheAccumulatorsSurviveAnEdge : Prop :=
  ∀ (s u : State) (p : Ports) (restS restU : List Input),
    s.crc = u.crc → s.sum = u.sum → s.inputs = .edge p :: restS → u.inputs = .edge p :: restU →
    ∃ s' u', step s = .next s' ∧ step u = .next u' ∧
      s'.crc = u'.crc ∧ s'.sum = u'.sum ∧ s'.rdata = u'.rdata

/-- R112 and R122: any number of idle cycles, and any interval without an edge, leaves both accumulators; after a loss
of power, whatever the accumulators then hold, one reset edge gives the reset values. -/
def Obligations.IdleHoldsAndOneResetRecoversPowerLoss : Prop :=
  (∀ (n : Nat) (s : State) (rest : List Input), s.inputs = List.replicate n (.edge Ports.idle) ++ rest →
      ∃ t, steps n s = .next t ∧ t.crc = s.crc ∧ t.sum = s.sum ∧ t.inputs = rest) ∧
    (∀ (s : State) (p : Ports) (rest : List Input), s.inputs = .noEdge p :: rest →
      ∃ t, steps 1 s = .next t ∧ t.crc = s.crc ∧ t.sum = s.sum ∧ t.inputs = rest) ∧
    (∀ (s : State) (p : Ports) (rest : List Input), p.rst = true → s.inputs = .powerLoss :: .edge p :: rest →
      ∃ t, steps 2 s = .next t ∧ t.crc = 0xFFFF#16 ∧ t.sum = 0x00#8 ∧ t.inputs = rest)

/-! ## The wire -/

/-- R31: a legacy frame has 13 bytes, its byte 12 is the additive checksum of bytes 0 to 11, the sum of those twelve
modulo 256, and CKSUM8 over the covered bytes reads it, from any state. -/
def Obligations.LegacyFrameCarriesTheSumOfItsBody : Prop :=
  ∀ (command : Byte) (data : Vector Byte 8),
    let frame := legacyFrame command data
    frame.length = 13 ∧ legacyCovered frame = legacyBody command data ∧
      (∃ k : Byte, frame[12]? = some k ∧ k.toNat = ((frame.take 12).map BitVec.toNat).sum % 256 ∧
        ∃ ws, assemble (.cksum8 ((legacyCovered frame).map BitVec.toNat)) = .ok ws ∧
          ∀ (s : State) (rest : List Input), s.inputs = transactions ws ++ rest →
            ∃ t, steps ws.length s = .next t ∧ t.rdata = k.setWidth 16) ∧
      legacyChecksumMatches frame = true

/-- R32 and R33: the CRC trailer covers all bytes before it; its first byte is `CRC[7:0]` and its second
`CRC[15:8]`, what RDCRCL and RDCRCH read; the read-info command is such a frame; and a frame built so is the one the
master's comparison accepts. -/
def Obligations.BleFrameTrailerIsLowByteFirst : Prop :=
  (∀ body : List Byte, bleCovered (bleFrame body) = body ∧ bleTrailerMatches (bleFrame body) = true ∧
      (bleFrame body).drop body.length =
        [(crc16Modbus body).extractLsb' 0 8, (crc16Modbus body).extractLsb' 8 8]) ∧
    (∀ s : State, ∃ l h, exec .rdCrcl s = .next l ∧ exec .rdCrch s = .next h ∧
      crcTrailer s.crc = [l.rdata.setWidth 8, h.rdata.setWidth 8]) ∧
    bleFrame [0xD2#8, 0x03#8, 0x00#8, 0x00#8, 0x00#8, 0x3E#8] =
      [0xD2#8, 0x03#8, 0x00#8, 0x00#8, 0x00#8, 0x3E#8, 0xD7#8, 0xB9#8]
end

