-- ==== Sys2Proof/Laws/Decode.lean ====
section
/-! SUPPORT. The fields of a transaction word laid out and read back. -/

namespace Sys2Proof

/-- The registers by address (R24). -/
theorem Reg.ofAddr_values :
    Reg.ofAddr 0#3 = .data ∧ Reg.ofAddr 1#3 = .ctrl ∧ Reg.ofAddr 2#3 = .crc ∧ Reg.ofAddr 3#3 = .sum ∧
      Reg.ofAddr 4#3 = .crcl ∧ Reg.ofAddr 5#3 = .crch ∧ Reg.ofAddr 6#3 = .rsv6 ∧ Reg.ofAddr 7#3 = .rsv7 := by
  decide

/-- Each bit of a laid-out word. -/
theorem getLsbD_tword (we : Bool) (a : Addr) (d : Half) (i : Nat) :
    (tword we a d).getLsbD i =
      if i < 16 then d.getLsbD i else if i < 19 then a.getLsbD (i - 16) else decide (i = 19) && we := by
  unfold tword
  rw [BitVec.getLsbD_append, BitVec.getLsbD_append, BitVec.getLsbD_ofBool]
  split
  · rfl
  · by_cases h : i < 19
    · simp [h, show i - 16 < 3 by omega]
    · by_cases h' : i = 19
      · simp [h']
      · simp [h, h', show ¬ (i - 16 < 3) by omega, show ¬ (i - 16 - 3 = 0) by omega]

@[simp] theorem wField_tword (we : Bool) (a : Addr) (d : Half) : wField (tword we a d) = we := by
  simp only [wField, getLsbD_tword]
  simp

@[simp] theorem aField_tword (we : Bool) (a : Addr) (d : Half) : aField (tword we a d) = a := by
  apply BitVec.eq_of_getLsbD_eq
  intro i hi
  simp only [aField, BitVec.getLsbD_extractLsb', getLsbD_tword]
  simp [hi, show ¬ (16 + i < 16) by omega, show 16 + i < 19 by omega]

@[simp] theorem dField_tword (we : Bool) (a : Addr) (d : Half) : dField (tword we a d) = d := by
  apply BitVec.eq_of_getLsbD_eq
  intro i hi
  simp only [dField, BitVec.getLsbD_extractLsb', getLsbD_tword]
  simp [hi]

@[simp] theorem Reg.ofAddr_addr (r : Reg) : Reg.ofAddr r.addr = r := by
  cases r <;> rfl

@[simp] theorem Reg.addr_ofAddr (a : Addr) : (Reg.ofAddr a).addr = a := by
  revert a; decide

/-- Every word is laid out from its own fields. -/
theorem tword_fields (T : TWord) : tword (wField T) (aField T) (dField T) = T := by
  apply BitVec.eq_of_getLsbD_eq
  intro i hi
  rw [getLsbD_tword]
  simp only [wField, aField, dField, BitVec.getLsbD_extractLsb']
  split
  · simp [*]
  · split
    · rw [show 16 + (i - 16) = i by omega]
      simp [show i - 16 < 3 by omega]
    · simp [show i = 19 by omega]

/-- The FEED byte is the low byte of the write data. -/
theorem bField_eq (T : TWord) : bField T = (dField T).extractLsb' 0 8 := by
  apply BitVec.eq_of_getLsbD_eq
  intro i hi
  simp only [bField, dField, BitVec.getLsbD_extractLsb']
  simp [hi, show i < 16 by omega]

/-- The INIT bit is bit 0 of the write data. -/
theorem iField_eq (T : TWord) : iField T = (dField T).getLsbD 0 := by
  simp [iField, dField]

/-- What a laid-out word decodes to, by its register. -/
theorem decode_tword (we : Bool) (a : Addr) (d : Half) :
    decode (tword we a d) =
      if we then
        match Reg.ofAddr a with
        | .data => .feed (d.extractLsb' 0 8)
        | .ctrl => if d.getLsbD 0 then .init else .ctlNop
        | .crc => .wrCrc d
        | .sum => .wrSum d
        | .crcl => .wrCrcl d
        | .crch => .wrCrch d
        | .rsv6 => .wrRsv6 d
        | .rsv7 => .wrRsv7 d
      else
        match Reg.ofAddr a with
        | .data => .rdData
        | .ctrl => .rdCtl
        | .crc => .rdCrc
        | .sum => .rdSum
        | .crcl => .rdCrcl
        | .crch => .rdCrch
        | .rsv6 => .rdRsv6
        | .rsv7 => .rdRsv7 := by
  simp only [decode, decodeWrite, decodeRead, wField_tword, aField_tword, dField_tword, bField_eq, iField_eq] <;> rfl

end Sys2Proof
end

