-- ==== Sys2Proof/Laws/State.lean ====
section
/-! SUPPORT. What each named update of State does to each field, and what each shared operation is as one record
update. -/

namespace Sys2Proof.Machine

@[simp] theorem State.quiet_crc (s : State) : s.quiet.crc = s.crc := rfl
@[simp] theorem State.quiet_sum (s : State) : s.quiet.sum = s.sum := rfl
@[simp] theorem State.quiet_rdata (s : State) : s.quiet.rdata = 0x0000#16 := rfl
@[simp] theorem State.quiet_inputs (s : State) : s.quiet.inputs = s.inputs := rfl
@[simp] theorem State.quiet_draws (s : State) : s.quiet.draws = s.draws := rfl

@[simp] theorem State.drive_crc (v : Half) (s : State) : (s.drive v).crc = s.crc := rfl
@[simp] theorem State.drive_sum (v : Half) (s : State) : (s.drive v).sum = s.sum := rfl
@[simp] theorem State.drive_rdata (v : Half) (s : State) : (s.drive v).rdata = v := rfl
@[simp] theorem State.drive_inputs (v : Half) (s : State) : (s.drive v).inputs = s.inputs := rfl
@[simp] theorem State.drive_draws (v : Half) (s : State) : (s.drive v).draws = s.draws := rfl

@[simp] theorem State.accumulate_crc (c : Half) (m : Byte) (s : State) : (s.accumulate c m).crc = c := rfl
@[simp] theorem State.accumulate_sum (c : Half) (m : Byte) (s : State) : (s.accumulate c m).sum = m := rfl
@[simp] theorem State.accumulate_rdata (c : Half) (m : Byte) (s : State) :
    (s.accumulate c m).rdata = s.rdata := rfl
@[simp] theorem State.accumulate_inputs (c : Half) (m : Byte) (s : State) :
    (s.accumulate c m).inputs = s.inputs := rfl
@[simp] theorem State.accumulate_draws (c : Half) (m : Byte) (s : State) :
    (s.accumulate c m).draws = s.draws := rfl

@[simp] theorem State.clear_crc (s : State) : s.clear.crc = crcInit := rfl
@[simp] theorem State.clear_sum (s : State) : s.clear.sum = sumInit := rfl
@[simp] theorem State.clear_rdata (s : State) : s.clear.rdata = s.rdata := rfl
@[simp] theorem State.clear_inputs (s : State) : s.clear.inputs = s.inputs := rfl
@[simp] theorem State.clear_draws (s : State) : s.clear.draws = s.draws := rfl

@[simp] theorem State.feedByte_crc (b : Byte) (s : State) : (s.feedByte b).crc = crcStep s.crc b := rfl
@[simp] theorem State.feedByte_sum (b : Byte) (s : State) : (s.feedByte b).sum = sumStep s.sum b := rfl
@[simp] theorem State.feedByte_rdata (b : Byte) (s : State) : (s.feedByte b).rdata = s.rdata := rfl
@[simp] theorem State.feedByte_inputs (b : Byte) (s : State) : (s.feedByte b).inputs = s.inputs := rfl
@[simp] theorem State.feedByte_draws (b : Byte) (s : State) : (s.feedByte b).draws = s.draws := rfl

/-- All that reset at an edge does. -/
theorem applyReset_spec (s : State) :
    applyReset s = { s with crc := crcInit, sum := sumInit, rdata := 0x0000#16 } := rfl

/-- All that an idle cycle does. -/
theorem idleCycle_spec (s : State) : idleCycle s = { s with rdata := 0x0000#16 } := rfl

/-- All that a loss of power does. -/
theorem losePower_spec (s : State) :
    losePower s =
      { s with crc := Config.powerUpCrc s.draws, sum := Config.powerUpSum s.draws, draws := s.draws + 1 } := rfl

/-- A slot's value depends on the accumulators alone (R12, R24). -/
theorem readSlot_congr (r : Reg) {s t : State} (hc : s.crc = t.crc) (hs : s.sum = t.sum) :
    readSlot r s = readSlot r t := by
  cases r <;> simp [readSlot, hc, hs]

end Sys2Proof.Machine
end

