-- ==== Sys2Proof/Laws/Ops.lean ====
section
/-! SUPPORT. What taking an input and choosing an edge's action can answer, and the algebra of the two step
functions. -/

namespace Sys2Proof.Machine

/-- With nothing pending the master presents an idle cycle. -/
theorem takeInput_nil {s : State} (h : s.inputs = []) : takeInput s = (.edge Ports.idle, s) := by
  simp [takeInput, h]

/-- Otherwise the first pending input is taken off the list, and nothing else changes. -/
theorem takeInput_cons {s : State} {i : Input} {rest : List Input} (h : s.inputs = i :: rest) :
    takeInput s = (i, { s with inputs := rest }) := by
  simp [takeInput, h]

/-- Taking an input leaves every field but the list as it was. -/
theorem takeInput_fields (s : State) :
    (takeInput s).2.crc = s.crc ∧ (takeInput s).2.sum = s.sum ∧ (takeInput s).2.rdata = s.rdata ∧
      (takeInput s).2.draws = s.draws ∧ (takeInput s).2.inputs = s.inputs.tail := by
  unfold takeInput
  cases h : s.inputs <;> simp [h]

/-- Reset comes first (R21). -/
theorem edgeAction_reset {p : Ports} (h : p.rst = true) : edgeAction p = .reset := by
  simp [edgeAction, h]

/-- Then a transaction (R21). -/
theorem edgeAction_transaction {p : Ports} (hr : p.rst = false) (hs : p.sel = true) :
    edgeAction p = .transaction p.word := by
  simp [edgeAction, hr, hs]

/-- Else nothing (R21). -/
theorem edgeAction_idle {p : Ports} (hr : p.rst = false) (hs : p.sel = false) : edgeAction p = .idle := by
  simp [edgeAction, hr, hs]

/-- The three cases of an edge, with the conditions under which each holds. -/
theorem edgeAction_cases (p : Ports) :
    (p.rst = true ∧ edgeAction p = .reset) ∨
      (p.rst = false ∧ p.sel = true ∧ edgeAction p = .transaction p.word) ∨
      (p.rst = false ∧ p.sel = false ∧ edgeAction p = .idle) := by
  unfold edgeAction
  cases p.rst <;> cases p.sel <;> simp

/-- The sum modulo 256 is the addition of bytes. -/
theorem sumStep_eq_add (s b : Byte) : sumStep s b = s + b := by
  apply BitVec.eq_of_toNat_eq
  simp only [sumStep, BitVec.extractLsb'_toNat, BitVec.toNat_add, BitVec.toNat_setWidth]
  omega

/-- One iteration is linear over GF(2). -/
theorem crcBit_xor (c d : Half) : crcBit (c ^^^ d) = crcBit c ^^^ crcBit d := by
  have hx : ∀ i, (c ^^^ d).getLsbD i = (c.getLsbD i ^^ d.getLsbD i) := fun i => by simp
  unfold crcBit
  rw [hx]
  apply BitVec.eq_of_getLsbD_eq
  intro i hi
  cases c.getLsbD 0 <;> cases d.getLsbD 0 <;> simp [Bool.xor_comm, Bool.xor_left_comm]

/-- Any number of iterations is. -/
theorem crcBits_xor (n : Nat) (c d : Half) : crcBits n (c ^^^ d) = crcBits n c ^^^ crcBits n d := by
  induction n generalizing c d with
  | zero => rfl
  | succ n ih => simp only [crcBits, crcBit_xor, ih]

end Sys2Proof.Machine
end

