-- ==== Sys2Proof/Laws/PerInstr.lean ====
section
/-! SUPPORT. A statement about the syntax of every transaction, one lemma for each constructor. -/

namespace Sys2Proof.Laws

/-- The mnemonics of the rows of the opcode map that a word selects (R43). -/
def TableRow.rows (T : TWord) : List String :=
  (opcodeTable.filter fun row => row.selects T).map OpRow.mnemonic

/-- An instruction's word selects exactly one row of the opcode map, the one that bears its mnemonic (R43). -/
def TableRow.Statement (i : Instr) : Prop := TableRow.rows (encode i) = [i.mnemonic]

/-- Of the write data a row's mask sees bit 0 at most. -/
theorem TableRow.and_mask {row : OpRow} (hr : row ∈ opcodeTable) (we : Bool) (a : Addr) (d : Half) :
    tword we a d &&& row.mask = tword we a (d &&& 1#16) &&& row.mask := by
  have hm : ∀ row ∈ opcodeTable, ∀ j < 16, row.mask.getLsbD j = true → j = 0 := by decide
  apply BitVec.eq_of_getLsbD_eq
  intro i _
  rw [BitVec.getLsbD_and, BitVec.getLsbD_and, getLsbD_tword, getLsbD_tword]
  by_cases h : i < 16
  · cases hb : row.mask.getLsbD i
    · simp
    · simp [hm row hr i h hb]
  · simp [h]

/-- So a word with any write data selects the rows that the same word with its bit 0 alone selects. -/
theorem TableRow.of_low {m : String} {we : Bool} {a : Addr} (d : Half)
    (h0 : TableRow.rows (tword we a 0#16) = [m]) (h1 : TableRow.rows (tword we a 1#16) = [m]) :
    TableRow.rows (tword we a d) = [m] := by
  have e : TableRow.rows (tword we a d) = TableRow.rows (tword we a (d &&& 1#16)) := by
    unfold TableRow.rows
    congr 1
    apply List.filter_congr
    intro row hr
    simp only [OpRow.selects, TableRow.and_mask hr we a d]
  have hd : d &&& 1#16 = 0#16 ∨ d &&& 1#16 = 1#16 := by
    have h1 : ∀ i, (1#16).getLsbD i = decide (i = 0) := fun i => by
      cases i <;> simp [BitVec.getLsbD_one]
    cases h : d.getLsbD 0
    · left
      apply BitVec.eq_of_getLsbD_eq
      intro i _
      by_cases hi : i = 0 <;> simp_all
    · right
      apply BitVec.eq_of_getLsbD_eq
      intro i _
      by_cases hi : i = 0 <;> simp_all
  rcases hd with hd | hd <;> rw [e, hd] <;> assumption

theorem TableRow.feed (b : Byte) : TableRow.Statement (.feed b) :=
  TableRow.of_low (m := "FEED") (b.setWidth 16) (by decide) (by decide)

theorem TableRow.init : TableRow.Statement .init := by
  unfold TableRow.Statement; decide

theorem TableRow.ctlNop : TableRow.Statement .ctlNop := by
  unfold TableRow.Statement; decide

theorem TableRow.wrCrc (d : Half) : TableRow.Statement (.wrCrc d) :=
  TableRow.of_low (m := "WRCRC") d (by decide) (by decide)

theorem TableRow.wrSum (d : Half) : TableRow.Statement (.wrSum d) :=
  TableRow.of_low (m := "WRSUM") d (by decide) (by decide)

theorem TableRow.wrCrcl (d : Half) : TableRow.Statement (.wrCrcl d) :=
  TableRow.of_low (m := "WRCRCL") d (by decide) (by decide)

theorem TableRow.wrCrch (d : Half) : TableRow.Statement (.wrCrch d) :=
  TableRow.of_low (m := "WRCRCH") d (by decide) (by decide)

theorem TableRow.wrRsv6 (d : Half) : TableRow.Statement (.wrRsv6 d) :=
  TableRow.of_low (m := "WRRSV6") d (by decide) (by decide)

theorem TableRow.wrRsv7 (d : Half) : TableRow.Statement (.wrRsv7 d) :=
  TableRow.of_low (m := "WRRSV7") d (by decide) (by decide)

theorem TableRow.rdData : TableRow.Statement .rdData := by
  unfold TableRow.Statement; decide

theorem TableRow.rdCtl : TableRow.Statement .rdCtl := by
  unfold TableRow.Statement; decide

theorem TableRow.rdCrc : TableRow.Statement .rdCrc := by
  unfold TableRow.Statement; decide

theorem TableRow.rdSum : TableRow.Statement .rdSum := by
  unfold TableRow.Statement; decide

theorem TableRow.rdCrcl : TableRow.Statement .rdCrcl := by
  unfold TableRow.Statement; decide

theorem TableRow.rdCrch : TableRow.Statement .rdCrch := by
  unfold TableRow.Statement; decide

theorem TableRow.rdRsv6 : TableRow.Statement .rdRsv6 := by
  unfold TableRow.Statement; decide

theorem TableRow.rdRsv7 : TableRow.Statement .rdRsv7 := by
  unfold TableRow.Statement; decide

end Sys2Proof.Laws
end

