-- ==== Sys2Proof/Laws/Step.lean ====
section
/-! SUPPORT. All that a step can do, said once. -/

namespace Sys2Proof.Machine

/-- Where the next input is an edge, the step is that edge's action. -/
theorem step_edge {s : State} {p : Ports} {rest : List Input} (h : s.inputs = .edge p :: rest) :
    step s =
      match edgeAction p with
      | .reset => .next (applyReset { s with inputs := rest })
      | .transaction T => exec (decode T) { s with inputs := rest }
      | .idle => .next (idleCycle { s with inputs := rest }) := by
  unfold step
  rw [takeInput_cons h] <;> rfl

/-- The cases of a step that answers a next state. -/
theorem step_cases {s t : State} (h : step s = .next t) :
    (∃ p, (takeInput s).1 = .edge p ∧ edgeAction p = .reset ∧ t = applyReset (takeInput s).2) ∨
      (∃ p T, (takeInput s).1 = .edge p ∧ edgeAction p = .transaction T ∧
        exec (decode T) (takeInput s).2 = .next t) ∨
      (∃ p, (takeInput s).1 = .edge p ∧ edgeAction p = .idle ∧ t = idleCycle (takeInput s).2) ∨
      (∃ p, (takeInput s).1 = .noEdge p ∧ t = (takeInput s).2) ∨
      ((takeInput s).1 = .powerLoss ∧ t = losePower (takeInput s).2) := by
  unfold step at h
  rcases hi : takeInput s with ⟨i, s'⟩
  rw [hi] at h
  cases i with
  | edge p =>
    dsimp only at h
    cases ha : edgeAction p <;> rw [ha] at h <;> simp_all
  | noEdge p => simp_all
  | powerLoss => simp_all
  | undriven => simp at h

end Sys2Proof.Machine
end

