-- ==== Sys2Proof/Laws/Safety.lean ====
section
/-! SUPPORT. The small lemmas of the terms about runs, and what a transaction leaves in the accumulators, said once. -/

namespace Sys2Proof

open Sys2Proof.Machine

@[simp] theorem afterTransactions_nil (cm : Half × Byte) : afterTransactions cm [] = cm := rfl

@[simp] theorem afterTransactions_cons (cm : Half × Byte) (T : TWord) (ws : List TWord) :
    afterTransactions cm (T :: ws) = afterTransactions (afterTransaction cm T) ws := rfl

theorem afterTransactions_append (cm : Half × Byte) (vs ws : List TWord) :
    afterTransactions cm (vs ++ ws) = afterTransactions (afterTransactions cm vs) ws :=
  List.foldl_append

@[simp] theorem steps_zero (s : State) : steps 0 s = .next s := rfl

theorem steps_succ {s t : State} (h : step s = .next t) (n : Nat) : steps (n + 1) s = steps n t := by
  simp only [steps, h]

/-- Running `n` steps and then `m` more is running them all. -/
theorem steps_add {n : Nat} {s t : State} (h : steps n s = .next t) (m : Nat) :
    steps (n + m) s = steps m t := by
  induction n generalizing s with
  | zero => cases h; rw [Nat.zero_add]
  | succ n ih =>
    rw [Nat.add_right_comm]
    simp only [steps] at h ⊢
    cases hs : step s with
    | next u => rw [hs] at h; exact ih h
    | fault r => rw [hs] at h; cases h
    | refused r => rw [hs] at h; cases h

/-- What a transaction leaves in CRC and SUM. -/
theorem exec_accumulators {T : TWord} {s t : State} (h : exec (decode T) s = .next t) :
    (t.crc, t.sum) = afterTransaction (s.crc, s.sum) T := by
  unfold afterTransaction
  cases hd : decode T <;> rw [hd] at h <;> cases h <;> rfl

end Sys2Proof
end

