-- ==== Sys2Proof/Tests/Slice0.lean ====
section
/-! SUPPORT. Small tests. Every expected value is the spec's: the worked vectors of spec/95_test_vectors.md, each named
by its id, and the patterns of spec/30_encoding.md R43. Then, for each statement of
Sys2Proof/Certificates/Slice0/Obligations.lean that has hypotheses, states and operands that meet them. -/

namespace Sys2Proof.Tests

open Sys2Proof.Machine

/-- A state with these accumulators, nothing pending, and a stale `rdata`. -/
def st (c : Half) (m : Byte) : State := { State.reset with crc := c, sum := m, rdata := 0x5555#16 }

/-- The same with inputs pending. -/
def pend (c : Half) (m : Byte) (is : List Input) : State := { st c m with inputs := is }

theorem st_crc (c : Half) (m : Byte) : (st c m).crc = c := rfl
theorem st_sum (c : Half) (m : Byte) : (st c m).sum = m := rfl
theorem pend_crc (c : Half) (m : Byte) (is : List Input) : (pend c m is).crc = c := rfl
theorem pend_sum (c : Half) (m : Byte) (is : List Input) : (pend c m is).sum = m := rfl

/-- CRC, SUM and `rdata` of a next state. -/
def seen : Host.Outcome State Fault Refusal → Option (Half × Byte × Half)
  | .next t => some (t.crc, t.sum, t.rdata)
  | .fault _ => none
  | .refused _ => none

/-! ## Source lines the assembler refuses (R46) -/

theorem test_feed_256_illFormed : (AsmLine.feed 256).wellFormed = false := by decide
theorem test_feed_255_wellFormed : (AsmLine.feed 255).wellFormed = true := by decide
theorem test_wr_10000_illFormed : (AsmLine.wr .rsv6 0x10000).wellFormed = false := by decide
theorem test_wr_FFFF_wellFormed : (AsmLine.wr .rsv6 0xFFFF).wellFormed = true := by decide
theorem test_feeds_illFormed : (AsmLine.feeds [1, 256]).wellFormed = false := by decide
theorem test_crc16_illFormed : (AsmLine.crc16 [300]).wellFormed = false := by decide
theorem test_cksum8_illFormed : (AsmLine.cksum8 [0, 0, 1000]).wellFormed = false := by decide

/-! ## Decoding: words written out from the patterns of R43, ignored bits set -/

theorem test_decode_feed : decode 0b10001010101111010010#20 = .feed 0xD2#8 := by decide
theorem test_decode_init : decode 0b10011111111111111111#20 = .init := by decide
theorem test_decode_ctlNop : decode 0b10011111111111111110#20 = .ctlNop := by decide
theorem test_decode_wrCrc : decode 0b10100001001000110100#20 = .wrCrc 0x1234#16 := by decide
theorem test_decode_wrSum : decode 0b10111000000000000001#20 = .wrSum 0x8001#16 := by decide
theorem test_decode_wrCrcl : decode 0b11000000000011010111#20 = .wrCrcl 0x00D7#16 := by decide
theorem test_decode_wrCrch : decode 0b11010000000010111001#20 = .wrCrch 0x00B9#16 := by decide
theorem test_decode_wrRsv6 : decode 0b11101111111111111111#20 = .wrRsv6 0xFFFF#16 := by decide
theorem test_decode_wrRsv7 : decode 0b11110000000000000001#20 = .wrRsv7 0x0001#16 := by decide
theorem test_decode_rdData : decode 0b00001111111111111111#20 = .rdData := by decide
theorem test_decode_rdCtl : decode 0b00011111111111111111#20 = .rdCtl := by decide
theorem test_decode_rdCrc : decode 0b00101010101111001101#20 = .rdCrc := by decide
theorem test_decode_rdSum : decode 0b00110000000000000001#20 = .rdSum := by decide
theorem test_decode_rdCrcl : decode 0b01000000000000000001#20 = .rdCrcl := by decide
theorem test_decode_rdCrch : decode 0b01011111111111111111#20 = .rdCrch := by decide
theorem test_decode_rdRsv6 : decode 0b01100000000000000001#20 = .rdRsv6 := by decide
theorem test_decode_rdRsv7 : decode 0b01111111111111111111#20 = .rdRsv7 := by decide

/-- A number with a bit above bit 19 is no transaction word (R40). -/
theorem test_decode_refuses_wide_number : decodeTableWord 24 0x100000 = none := by decide
theorem test_decodeTableWord_feed : decodeTableWord 24 0x800D2 = some (.feed 0xD2#8) := by decide
theorem test_disassemble_feed : disassemble 0x8ABFF#20 = ("FEED", some 0xFF) := by decide

/-! ## The step functions (sections 2.1 and 2.5) -/

theorem test_crcStep_first_of_S1 : crcStep 0xFFFF#16 0xD2#8 = 0x1D3F#16 := by decide
theorem test_crcStep_1234_56 : crcStep 0x1234#16 0x56#8 = 0xE993#16 := by decide
theorem test_crcStep_high_byte_shifts_down : crcStep 0x8000#16 0x00#8 = 0x0080#16 := by decide
theorem test_crcStep_C001_is_fixed : crcStep 0xC001#16 0x00#8 = 0xC001#16 := by decide
theorem test_sumStep_drops_carry : sumStep 0x80#8 0x80#8 = 0x00#8 := by decide

/-! ## One transaction each -/

theorem test_V_FEED_2 : seen (exec (decode 0x8ABFF#20) (st 0xE181#16 0x03#8)) = some (0x2061#16, 0x02#8, 0#16) := by
  decide
theorem test_V_FEED_4 : seen (exec (decode 0x80056#20) (st 0x1234#16 0xFF#8)) = some (0xE993#16, 0x55#8, 0#16) := by
  decide
theorem test_V_INIT_3 : seen (exec (decode 0x98001#20) (st 0x2061#16 0x02#8)) = some (0xFFFF#16, 0x00#8, 0#16) := by
  decide
theorem test_V_NOP_2 : seen (exec (decode 0x9FFFE#20) (st 0x2061#16 0x02#8)) = some (0x2061#16, 0x02#8, 0#16) := by
  decide
theorem test_V_UNM_2 : seen (exec (decode 0xAFFFF#20) (st 0x1D3F#16 0xD2#8)) = some (0x1D3F#16, 0xD2#8, 0#16) := by
  decide
theorem test_V_UNM_3 : seen (exec (decode 0xB0000#20) (st 0x1D3F#16 0xD2#8)) = some (0x1D3F#16, 0xD2#8, 0#16) := by
  decide
theorem test_V_UNM_4 : seen (exec (decode 0xC00D7#20) (st 0x1D3F#16 0xD2#8)) = some (0x1D3F#16, 0xD2#8, 0#16) := by
  decide
theorem test_V_UNM_5 : seen (exec (decode 0xD00B9#20) (st 0x1D3F#16 0xD2#8)) = some (0x1D3F#16, 0xD2#8, 0#16) := by
  decide
theorem test_V_UNM_6 : seen (exec (decode 0xEFFFF#20) (st 0x1D3F#16 0xD2#8)) = some (0x1D3F#16, 0xD2#8, 0#16) := by
  decide
theorem test_V_UNM_7 : seen (exec (decode 0xF0001#20) (st 0x1D3F#16 0xD2#8)) = some (0x1D3F#16, 0xD2#8, 0#16) := by
  decide
theorem test_V_UNM_8 : seen (exec (decode 0x00000#20) (st 0x1D3F#16 0xD2#8)) = some (0x1D3F#16, 0xD2#8, 0#16) := by
  decide
theorem test_V_UNM_9 : seen (exec (decode 0x1FFFF#20) (st 0x1D3F#16 0xD2#8)) = some (0x1D3F#16, 0xD2#8, 0#16) := by
  decide
theorem test_V_UNM_10 : seen (exec (decode 0x60000#20) (st 0x1D3F#16 0xD2#8)) = some (0x1D3F#16, 0xD2#8, 0#16) := by
  decide
theorem test_V_UNM_11 : seen (exec (decode 0x7FFFF#20) (st 0x1D3F#16 0xD2#8)) = some (0x1D3F#16, 0xD2#8, 0#16) := by
  decide
theorem test_V_RD_8 : seen (exec (decode 0x2ABCD#20) (st 0xB9D7#16 0x13#8)) = some (0xB9D7#16, 0x13#8, 0xB9D7#16) := by
  decide
theorem test_V_RD_2 : seen (exec (decode 0x30000#20) (st 0xB9D7#16 0x13#8)) = some (0xB9D7#16, 0x13#8, 0x0013#16) := by
  decide
theorem test_V_RD_3 : seen (exec (decode 0x40000#20) (st 0xB9D7#16 0x13#8)) = some (0xB9D7#16, 0x13#8, 0x00D7#16) := by
  decide
theorem test_V_RD_4 : seen (exec (decode 0x50000#20) (st 0xB9D7#16 0x13#8)) = some (0xB9D7#16, 0x13#8, 0x00B9#16) := by
  decide

/-! ## One step each (section 2.9) -/

/-- V-RST-2: reset with FEED 0x55 presented. -/
theorem test_V_RST_2 :
    seen (step (pend 0x1D3F#16 0xD2#8 [.edge { Ports.ofWord 0x80055#20 with rst := true }])) =
      some (0xFFFF#16, 0x00#8, 0#16) := by decide

/-- V-RST-3: reset with RDCRC presented. -/
theorem test_V_RST_3 :
    seen (step (pend 0xB9D7#16 0x13#8 [.edge { Ports.ofWord 0x20000#20 with rst := true }])) =
      some (0xFFFF#16, 0x00#8, 0#16) := by decide

/-- V-RST-4: an idle cycle. -/
theorem test_V_RST_4 :
    seen (step (pend 0xB9D7#16 0x13#8 [.edge Ports.idle])) = some (0xB9D7#16, 0x13#8, 0#16) := by decide

/-- `we` is ignored when `sel = 0` (R20). -/
theorem test_unselected_write_is_idle :
    seen (step (pend 0xB9D7#16 0x13#8 [.edge { Ports.ofWord 0x90001#20 with sel := false }])) =
      some (0xB9D7#16, 0x13#8, 0#16) := by decide

/-- R120: a reset asserted without an edge has no effect. -/
theorem test_reset_between_edges :
    (seen (step (pend 0xB9D7#16 0x13#8 [.noEdge Ports.reset]))).map (fun t => (t.1, t.2.1)) =
      some (0xB9D7#16, 0x13#8) := by decide

/-- R23: an edge outside the spec has no step. -/
theorem test_undriven_edge_stops : seen (step (pend 0xB9D7#16 0x13#8 [.undriven])) = none := by decide

/-- The first transaction after reset is the one `withFetchWord` places: V-FEED-1. -/
theorem test_withFetchWord_feed :
    seen (step (State.reset.withFetchWord 24 0x800D2)) = some (0x1D3F#16, 0xD2#8, 0#16) := by decide

/-! ## The assembler and the wire -/

/-- R46: a mnemonic in small letters, a hexadecimal operand. -/
theorem test_assemble_feed_text :
    (assembleText ['f', 'e', 'e', 'd', ' ', '0', 'x', 'D', '2']).toOption = some [0x800D2#20] := by decide

/-- Program P5, step 16: `WR CTRL, 0x8001` is 0x98001. -/
theorem test_assemble_wr_text :
    (assembleText ['W', 'R', ' ', 'C', 'T', 'R', 'L', ',', ' ', '0', 'x', '8', '0', '0', '1']).toOption =
      some [0x98001#20] := by decide

/-- R47: the expansion of CRC16. -/
theorem test_assemble_crc16 :
    (assemble (.crc16 [1, 3])).toOption = some [0x90001#20, 0x80001#20, 0x80003#20, 0x20000#20] := by decide

/-- S1's trailer of 0xB9D7 is `D7 B9`. -/
theorem test_crcTrailer : crcTrailer 0xB9D7#16 = [0xD7#8, 0xB9#8] := by decide

/-- R90: reserved bits set break the software contract. -/
theorem test_contract : conforms 0x98001#20 = false ∧ conforms 0x90001#20 = true := by decide

/-! ## Hypotheses that can be met -/

theorem witness_ResetEdgeDiscardsAndClears :
    (∃ (s : State) (p : Ports) (rest : List Input), p.rst = true ∧ p.sel = true ∧ s.inputs = .edge p :: rest) ∧
      ∃ (s : State) (p : Ports) (rest : List Input), s.inputs = .noEdge p :: rest :=
  ⟨⟨pend 0x1D3F#16 0xD2#8 [.edge { Ports.ofWord 0x80055#20 with rst := true }], _, _, rfl, rfl, rfl⟩,
    ⟨pend 0x1D3F#16 0xD2#8 [.noEdge Ports.reset], _, _, rfl⟩⟩

theorem witness_IntervalWithoutEdgeLeavesTheWholeState :
    ∃ (s : State) (p : Ports) (rest : List Input), s.rdata ≠ 0#16 ∧ p.rst = true ∧ s.inputs = .noEdge p :: rest :=
  ⟨pend 0x1D3F#16 0xD2#8 [.noEdge Ports.reset], Ports.reset, [], by decide, rfl, rfl⟩

theorem witness_EdgeFollowsThePriority :
    ∀ p ∈ [Ports.reset, Ports.ofWord 0x800D2#20, Ports.ofWord 0x20000#20, Ports.idle],
      ∃ (s : State) (rest : List Input), s.inputs = .edge p :: rest ∧
        (p.rst = true ∨ (p.rst = false ∧ p.sel = true ∧ p.we = true) ∨
          (p.rst = false ∧ (p.sel = false ∨ p.we = false))) := by
  intro p hp
  exact ⟨pend 0#16 0#8 [.edge p], [], rfl, by revert p; decide⟩

theorem witness_StepRunsTheDecodedTransaction :
    (∃ (s : State) (p : Ports) (rest : List Input), p.rst = false ∧ p.sel = true ∧ s.inputs = .edge p :: rest) ∧
      decodeTableWord 24 0xFFFFF = some (.wrRsv7 0xFFFF#16) :=
  ⟨⟨pend 0#16 0#8 [.edge (Ports.ofWord 0x800D2#20)], _, _, rfl, rfl, rfl⟩, by decide⟩

theorem witness_ReadDataComesFromTheStartOfTheCycle :
    ∃ (s : State) (p : Ports) (rest : List Input), s.inputs = .edge p :: rest ∧ p.sel = true ∧ p.we = false :=
  ⟨pend 0xB9D7#16 0x13#8 [.edge (Ports.ofWord 0x50000#20)], _, _, rfl, by decide, by decide⟩

theorem witness_RegisterMapReadsAndWrites :
    ∀ (we : Bool) (a : Addr) (d : Half),
      ∃ (s : State) (rest : List Input), s.inputs = .edge ⟨false, true, we, a, d⟩ :: rest :=
  fun _ _ _ => ⟨pend 0#16 0#8 [.edge _], [], rfl⟩

theorem witness_FeedUpdatesBothEngines :
    (0x8FFFF#20 &&& 0xF0000#20 = 0x80000#20) ∧
      State.reset.crc = 0xFFFF#16 ∧ State.reset.sum = 0x00#8 := by decide

theorem witness_fixed_points :
    crcStep 0x0000#16 0x00#8 = 0x0000#16 ∧ crcStep 0xC001#16 0x00#8 = 0xC001#16 := by decide

theorem witness_InitRestoresTheStartValues :
    0x90001#20 &&& 0xF0001#20 = 0x90001#20 ∧ 0x9FFFF#20 &&& 0xF0001#20 = 0x90001#20 := by decide

theorem witness_ControlWriteWithoutInitBitDoesNothing :
    0x90000#20 &&& 0xF0001#20 = 0x90000#20 ∧ 0x9FFFE#20 &&& 0xF0001#20 = 0x90000#20 := by decide

/-- The rows with a plain address, at both ends of each row's range: the hypotheses on words of
`WritesOfResultSlotsAreIgnored`, `WritesOfReservedSlotsAreIgnored`, `ReadsOfUnmappedSlotsReturnZero` and the statements
of the readback family. -/
theorem witness_row_masks :
    ∀ k : Fin 16,
      (BitVec.ofNat 20 (k.val * 0x10000) &&& 0xF0000#20 = BitVec.ofNat 20 (k.val * 0x10000)) ∧
        (BitVec.ofNat 20 (k.val * 0x10000 + 0xFFFF) &&& 0xF0000#20 = BitVec.ofNat 20 (k.val * 0x10000)) := by
  decide

theorem witness_ReadCrcReturnsTheWholeRegister :
    (∃ s t : State, exec .init s = .next t) ∧ (∃ s t : State, t = applyReset s) ∧
      (∃ (s : State) (bs : List Byte), bs ≠ [] ∧ s.crc = crc16Modbus (bs ++ crcTrailer (crc16Modbus bs))) ∧
      (∃ (s : State) (bs : List Byte), s.crc = crc16Modbus bs) ∧
      ∃ s : State, s.crc = crc16Modbus [0xD2#8, 0x03#8, 0x00#8, 0x00#8, 0x00#8, 0x3E#8] :=
  ⟨⟨st 0#16 0#8, _, rfl⟩, ⟨st 0#16 0#8, _, rfl⟩,
    ⟨st (crc16Modbus ([0x01#8] ++ crcTrailer (crc16Modbus [0x01#8]))) 0#8, [0x01#8], by decide, st_crc _ _⟩,
    ⟨State.reset, [], rfl⟩, ⟨st _ 0x13#8, st_crc _ _⟩⟩

theorem witness_ReadSumReturnsTheZeroExtendedSum :
    (∃ s t : State, exec .rdSum s = .next t) ∧ (∃ s t : State, exec .init s = .next t) ∧
      (∃ s t : State, t = applyReset s) ∧
      ∃ s : State,
        s.sum = additiveChecksum [0xA5#8, 0x80#8, 0x90#8, 0x08#8, 0x00#8, 0x7D#8, 0x75#8, 0x30#8, 0x03#8, 0x84#8,
          0x00#8, 0x00#8] :=
  ⟨⟨st 0#16 0xFF#8, _, rfl⟩, ⟨st 0#16 0#8, _, rfl⟩, ⟨st 0#16 0#8, _, rfl⟩, ⟨st 0#16 _, st_sum _ _⟩⟩

/-- The hypotheses of `ReadCrcHalvesReturnTheBytes` are those of the two statements before it and of the row masks. -/
theorem witness_ReadCrcHalvesReturnTheBytes :
    (∃ s t : State, exec .init s = .next t) ∧
      (∃ s : State, s.crc = crc16Modbus [0xD2#8, 0x03#8, 0x00#8, 0x00#8, 0x00#8, 0x3E#8]) ∧
      (∃ (s : State) (bs : List Byte), s.crc = crc16Modbus (bs ++ crcTrailer (crc16Modbus bs))) ∧
      ∃ (i : Instr) (s t u v : State), exec .rdCrcl s = .next t ∧ writesAccumulators i = false ∧
        exec i t = .next u ∧ exec .rdCrch u = .next v :=
  ⟨⟨st 0#16 0#8, _, rfl⟩, ⟨st _ 0x13#8, st_crc _ _⟩, ⟨st _ 0#8, [], st_crc _ _⟩,
    ⟨.wrCrc 0xFFFF#16, st 0x807E#16 0x01#8, _, _, _, rfl, rfl, rfl, rfl⟩⟩

theorem witness_ReadsOfUnmappedSlotsReturnZero :
    (∃ (b : Byte) (s t : State), exec (.feed b) s = .next t) ∧ ∃ s t : State, exec .init s = .next t :=
  ⟨⟨0xD2#8, st 0xFFFF#16 0#8, _, rfl⟩, ⟨st 0#16 0#8, _, rfl⟩⟩

theorem witness_SoftwareContractAsksReservedBitsZero :
    (0x00FF#16).extractLsb' 8 8 = 0x00#8 ∧ (0x0001#16).extractLsb' 1 15 = 0#15 := by decide

theorem witness_WordIsTheCyclesThreeFields : 0xFFFFF < 2 ^ 20 ∧ 2 ^ 20 ≤ 0x100000 := by decide

theorem witness_AssemblerWritesTheWordsOfTheTable :
    (255 ≤ 255 ∧ 255 < 256) ∧ (0xFFFF ≤ 0xFFFF ∧ 0xFFFF < 0x10000) ∧ (∃ d : Nat, d < 256 ∧ 0 < d) :=
  ⟨by decide, by decide, 255, by decide, by decide⟩

theorem witness_ReservedBitsAreIgnored :
    ((0x8ABFF#20).extractLsb' 16 4 = (0x800FF#20).extractLsb' 16 4 ∧
        (0x8ABFF#20).extractLsb' 0 8 = (0x800FF#20).extractLsb' 0 8) ∧
      ((0x9FFFF#20).extractLsb' 16 4 = (0x90001#20).extractLsb' 16 4 ∧
        (0x9FFFF#20).getLsbD 0 = (0x90001#20).getLsbD 0) ∧
      10 ≤ ((0xA1234#20).extractLsb' 16 4).toNat ∧ 10 ≤ ((0xFFFFF#20).extractLsb' 16 4).toNat ∧
      ((0x9FFFE#20).extractLsb' 16 4 = 9#4 ∧ (0x9FFFE#20).getLsbD 0 = false) := by decide

/-- Each pseudo-instruction's words, and those of `LegacyFrameCarriesTheSumOfItsBody`, can stand at the head of the
inputs. -/
theorem witness_PseudoInstructionsGiveTheirResults :
    ∀ ws : List TWord, ∃ (s : State) (rest : List Input), s.inputs = transactions ws ++ rest :=
  fun ws => ⟨pend 0x1234#16 0x56#8 (transactions ws ++ [.edge Ports.idle]), _, rfl⟩

theorem witness_EveryStepKeepsTheAccumulatorLaw :
    ∃ (s t : State) (fed : Option (List Byte)), fed = some [] ∧ Accumulates fed s ∧ step s = .next t :=
  ⟨{ State.reset with inputs := [.edge (Ports.ofWord 0x800D2#20)] }, _, some [], rfl,
    fun _ h => by cases h; exact ⟨rfl, rfl⟩, rfl⟩

theorem witness_AccumulatorsAreTheFunctionsOfTheFedBytes :
    ∀ start ∈ [Ports.reset, Ports.ofWord 0x90001#20],
      ∃ (s : State) (ws : List TWord) (rest : List Input),
        (start.rst = true ∨ start.sel = true ∧ decode start.word = .init) ∧ (∀ T ∈ ws, decode T ≠ .init) ∧
          s.inputs = .edge start :: transactions ws ++ rest := by
  intro start h
  exact ⟨pend 0x1234#16 0x56#8 (.edge start :: transactions [0x800D2#20]), [0x800D2#20], [],
    by revert start; decide, by rw [List.forall_mem_singleton]; decide, (List.append_nil _).symm⟩

theorem witness_MissingInitConcatenatesTheSequences :
    ∃ (s : State) (bs cs : List Byte) (rest : List Input),
      bs ≠ [] ∧ s.crc = crc16Modbus bs ∧ s.sum = additiveChecksum bs ∧
        s.inputs = transactions (cs.map fun b => encode (.feed b)) ++ rest :=
  ⟨pend (crc16Modbus [0x01#8]) (additiveChecksum [0x01#8]) (transactions [encode (.feed 0x02#8)]), [0x01#8],
    [0x02#8], [], by decide, pend_crc _ _ _, pend_sum _ _ _, rfl⟩

theorem witness_SplitReadMixesOnlyAcrossAChange :
    (∃ (s : State) (rest : List Input) (ws : List TWord), ws ≠ [] ∧
        (∀ T ∈ ws, writesAccumulators (decode T) = false) ∧
        s.inputs = transactions ([0x40000#20] ++ ws ++ [0x50000#20]) ++ rest) ∧
      (∃ (s : State) (rest : List Input) (b : Byte),
        s.inputs = transactions [0x40000#20, encode (.feed b), 0x50000#20] ++ rest) ∧
      (∃ (s : State) (rest : List Input),
        s.inputs = transactions [0x40000#20, 0x90001#20, 0x50000#20] ++ rest) ∧
      ∃ (s : State) (rest : List Input),
        s.inputs = transactions [0x40000#20] ++ .edge Ports.reset :: transactions [0x50000#20] ++ rest :=
  ⟨⟨pend 0x807E#16 0x01#8 (transactions [0x40000#20, 0x30000#20, 0x50000#20]), [], [0x30000#20], by decide,
      by rw [List.forall_mem_singleton]; decide, (List.append_nil _).symm⟩,
    ⟨pend 0x807E#16 0x01#8 (transactions [0x40000#20, encode (.feed 0x02#8), 0x50000#20]), [], 0x02#8,
      (List.append_nil _).symm⟩,
    ⟨pend 0x807E#16 0x01#8 (transactions [0x40000#20, 0x90001#20, 0x50000#20]), [], (List.append_nil _).symm⟩,
    ⟨pend 0x807E#16 0x01#8 (transactions [0x40000#20] ++ .edge Ports.reset :: transactions [0x50000#20]), [],
      (List.append_nil _).symm⟩⟩

theorem witness_ReadSeesTheWriteOfTheCycleBefore :
    (∀ (ws : List TWord) (a : Addr) (d : Half), ∃ (s : State) (rest : List Input),
        s.inputs = transactions (ws ++ [tword false a d]) ++ rest) ∧
      ∀ ws ∈ [[encode (.feed 0xFF#8), encode .rdCrc], [encode (.feed 0x00#8), encode .rdSum],
          [encode (.feed 0x00#8), encode .rdCrcl], [encode (.feed 0xFF#8), encode .rdCrch],
          [encode .init, encode .rdCrc], [encode .init, encode .rdSum], [encode .init, encode .rdCrcl],
          [encode .init, encode .rdCrch]],
        ∃ (s : State) (rest : List Input), s.inputs = transactions ws ++ rest :=
  ⟨fun ws a d => ⟨pend 0x1234#16 0x56#8 (transactions (ws ++ [tword false a d])), [], (List.append_nil _).symm⟩,
    fun ws _ => ⟨pend 0x1234#16 0x56#8 (transactions ws), [], (List.append_nil _).symm⟩⟩

theorem witness_SideEffectsOfEveryTransaction :
    (0x7FFFF#20).getLsbD 19 = false ∧ (0xA0000#20).getLsbD 19 = true ∧
      2 ≤ ((0xA0000#20).extractLsb' 16 3).toNat ∧ 2 ≤ ((0xFFFFF#20).extractLsb' 16 3).toNat := by decide

theorem witness_TransactionsLeaveTheRestUnchanged :
    ∃ (i : Instr) (s t : State), exec i s = .next t ∧ writesAccumulators i = false :=
  ⟨.rdCrc, st 0xB9D7#16 0x13#8, _, rfl, rfl⟩

theorem witness_OnlyFeedInitAndResetWriteTheAccumulators :
    ∃ s t : State, step s = .next t ∧ (t.crc ≠ s.crc ∨ t.sum ≠ s.sum) :=
  ⟨pend 0xFFFF#16 0x00#8 [.edge Ports.reset, .edge Ports.idle] |> fun s => { s with sum := 0x01#8 }, _, rfl,
    .inr (by decide)⟩

theorem witness_EveryTransactionCompletes :
    ∃ (s : State) (p : Ports) (rest : List Input), s.inputs = .edge p :: rest :=
  ⟨pend 0#16 0#8 [.edge (Ports.ofWord 0x00000#20)], _, _, rfl⟩

theorem witness_OnlyAnUndrivenEdgeStopsTheModel :
    (∃ (s : State) (rest : List Input), s.inputs = .undriven :: rest) ∧
      inSpec (takeInput State.reset).1 = true :=
  ⟨⟨pend 0#16 0#8 [.undriven], [], rfl⟩, rfl⟩

theorem witness_OnlyTheAccumulatorsSurviveAnEdge :
    ∃ (s u : State) (p : Ports) (restS restU : List Input),
      s ≠ u ∧ s.crc = u.crc ∧ s.sum = u.sum ∧ s.inputs = .edge p :: restS ∧ u.inputs = .edge p :: restU :=
  ⟨pend 0xB9D7#16 0x13#8 [.edge (Ports.ofWord 0x20000#20)],
    { pend 0xB9D7#16 0x13#8 [.edge (Ports.ofWord 0x20000#20), .undriven] with rdata := 0xFFFF#16, draws := 7 }, _, _, _,
    by decide, rfl, rfl, rfl, rfl⟩

theorem witness_IdleHoldsAndOneResetRecoversPowerLoss :
    (∃ (n : Nat) (s : State) (rest : List Input), 0 < n ∧
        s.inputs = List.replicate n (.edge Ports.idle) ++ rest) ∧
      (∃ (s : State) (p : Ports) (rest : List Input), s.inputs = .noEdge p :: rest) ∧
      ∃ (s : State) (p : Ports) (rest : List Input), p.rst = true ∧ s.inputs = .powerLoss :: .edge p :: rest :=
  ⟨⟨2, pend 0x1D3F#16 0xD2#8 [.edge Ports.idle, .edge Ports.idle], [], by decide, rfl⟩,
    ⟨pend 0x1D3F#16 0xD2#8 [.noEdge Ports.reset], _, _, rfl⟩,
    ⟨pend 0x1D3F#16 0xD2#8 [.powerLoss, .edge Ports.reset], _, _, rfl, rfl⟩⟩

end Sys2Proof.Tests
end

/-! ## The frame of a transaction, the writers of the accumulators, and what survives an edge

Everything here rests on one fact about `exec`, `exec_cases`: FEED and INIT write the accumulators, and every other
transaction only drives `rdata` with a value that CRC and SUM determine. -/

namespace Sys2Proof.Machine

/-! ### What a transaction can do -/

/-- All that a transaction can do (R62, R63, R22). One that is no writer drives `rdata` with what some slot, the same
one in every state, reads as: the addressed one for a read, and DATA, which reads as 0x0000, for an ignored write. -/
theorem exec_cases (i : Instr) :
    (∃ b, i = .feed b ∧ ∀ s, exec i s = .next (s.feedByte b).quiet) ∨
      (i = .init ∧ ∀ s, exec i s = .next s.clear.quiet) ∨
      (writesAccumulators i = false ∧ ∃ r, ∀ s, exec i s = .next (s.drive (readSlot r s))) := by
  cases i with
  | feed b => exact .inl ⟨b, rfl, fun _ => rfl⟩
  | init => exact .inr (.inl ⟨rfl, fun _ => rfl⟩)
  | ctlNop | wrCrc | wrSum | wrCrcl | wrCrch | wrRsv6 | wrRsv7 =>
    exact .inr (.inr ⟨rfl, .data, fun _ => rfl⟩)
  | rdData => exact .inr (.inr ⟨rfl, .data, fun _ => rfl⟩)
  | rdCtl => exact .inr (.inr ⟨rfl, .ctrl, fun _ => rfl⟩)
  | rdCrc => exact .inr (.inr ⟨rfl, .crc, fun _ => rfl⟩)
  | rdSum => exact .inr (.inr ⟨rfl, .sum, fun _ => rfl⟩)
  | rdCrcl => exact .inr (.inr ⟨rfl, .crcl, fun _ => rfl⟩)
  | rdCrch => exact .inr (.inr ⟨rfl, .crch, fun _ => rfl⟩)
  | rdRsv6 => exact .inr (.inr ⟨rfl, .rsv6, fun _ => rfl⟩)
  | rdRsv7 => exact .inr (.inr ⟨rfl, .rsv7, fun _ => rfl⟩)

/-- No transaction touches what the model holds beside the block (log entries 2 and 5). -/
theorem exec_inputs_draws {i : Instr} {s t : State} (h : exec i s = .next t) :
    t.inputs = s.inputs ∧ t.draws = s.draws := by
  obtain ⟨b, -, he⟩ | ⟨-, he⟩ | ⟨-, r, he⟩ := exec_cases i <;> rw [he] at h <;> cases h <;> simp

/-- The frame of R28: only FEED and INIT write the accumulators. -/
theorem exec_keeps_accumulators {i : Instr} {s t : State} (h : exec i s = .next t)
    (hw : writesAccumulators i = false) : t.crc = s.crc ∧ t.sum = s.sum := by
  obtain ⟨b, rfl, -⟩ | ⟨rfl, -⟩ | ⟨-, r, he⟩ := exec_cases i
  · cases hw
  · cases hw
  · rw [he] at h
    cases h
    simp

/-- What a transaction leaves in the block and on its port is a function of CRC and SUM (R12). -/
theorem exec_congr (i : Instr) {s u : State} (hc : s.crc = u.crc) (hm : s.sum = u.sum) :
    ∃ s' u', exec i s = .next s' ∧ exec i u = .next u' ∧
      s'.crc = u'.crc ∧ s'.sum = u'.sum ∧ s'.rdata = u'.rdata := by
  obtain ⟨b, -, he⟩ | ⟨-, he⟩ | ⟨-, r, he⟩ := exec_cases i
  · exact ⟨_, _, he s, he u, by simp [hc], by simp [hm], rfl⟩
  · exact ⟨_, _, he s, he u, rfl, rfl, rfl⟩
  · exact ⟨_, _, he s, he u, hc, hm, readSlot_congr r hc hm⟩

/-! ### When an edge resets, and when it runs a transaction -/

theorem edgeAction_eq_reset_iff {p : Ports} : edgeAction p = .reset ↔ p.rst = true := by
  obtain ⟨hr, ha⟩ | ⟨hr, -, ha⟩ | ⟨hr, -, ha⟩ := edgeAction_cases p <;> simp [hr, ha]

theorem edgeAction_eq_transaction_iff {p : Ports} {T : TWord} :
    edgeAction p = .transaction T ↔ p.rst = false ∧ p.sel = true ∧ p.word = T := by
  obtain ⟨hr, ha⟩ | ⟨hr, hs, ha⟩ | ⟨hr, hs, ha⟩ := edgeAction_cases p <;> simp [*]

/-! ### The obligations -/

/-- Settles O41: `exec_inputs_draws` for the model's own fields, and `exec_keeps_accumulators` for the block, whose
slots read as functions of the accumulators. -/
theorem transactionsLeaveTheRestUnchanged : Obligations.TransactionsLeaveTheRestUnchanged := by
  intro i s t h
  obtain ⟨hin, hdr⟩ := exec_inputs_draws h
  refine ⟨hin, hdr, fun hw => ?_⟩
  obtain ⟨hc, hm⟩ := exec_keeps_accumulators h hw
  exact ⟨hc, hm, fun r => readSlot_congr r hc hm⟩

/-- Settles O42: over the cases of a step, the three that are no loss of power, no reset and no writing transaction
leave both accumulators as taking the input left them, which is as they were. -/
theorem onlyFeedInitAndResetWriteTheAccumulators : Obligations.OnlyFeedInitAndResetWriteTheAccumulators := by
  intro s t h hne
  obtain ⟨hc, hm, -, -, -⟩ := takeInput_fields s
  have not_kept : ¬ (t.crc = (takeInput s).2.crc ∧ t.sum = (takeInput s).2.sum) := by
    rintro ⟨htc, htm⟩
    exact hne.elim (· (htc.trans hc)) (· (htm.trans hm))
  obtain ⟨p, hi, ha, -⟩ | ⟨p, T, hi, ha, he⟩ | ⟨p, -, -, rfl⟩ | ⟨p, -, rfl⟩ | ⟨hi, -⟩ := step_cases h
  case inl => exact .inr ⟨p, hi, .inl (edgeAction_eq_reset_iff.mp ha)⟩
  case inr.inl =>
    obtain ⟨-, hsel, rfl⟩ := edgeAction_eq_transaction_iff.mp ha
    have hw : writesAccumulators (decode p.word) = true := by
      by_contra hw
      exact not_kept (exec_keeps_accumulators he (Bool.eq_false_of_not_eq_true hw))
    exact .inr ⟨p, hi, .inr ⟨hsel, hw⟩⟩
  case inr.inr.inl => exact absurd ⟨rfl, rfl⟩ not_kept
  case inr.inr.inr.inl => exact absurd ⟨rfl, rfl⟩ not_kept
  case inr.inr.inr.inr => exact .inl hi

/-- Settles O45: at an edge both states do the same action, and each of the three answers the same CRC, SUM and
`rdata` for the same accumulators; for a transaction that is `exec_congr`. -/
theorem onlyTheAccumulatorsSurviveAnEdge : Obligations.OnlyTheAccumulatorsSurviveAnEdge := by
  intro s u p restS restU hc hm hs hu
  rw [step_edge hs, step_edge hu]
  cases edgeAction p with
  | reset => exact ⟨_, _, rfl, rfl, rfl, rfl, rfl⟩
  | transaction T => exact exec_congr (decode T) hc hm
  | idle => exact ⟨_, _, rfl, rfl, hc, hm, rfl⟩

end Sys2Proof.Machine

/-! ## The register slots at an edge

A cycle with a transaction reads or writes one of the eight slots. `exec_of_read` and `exec_of_write` say so for every
word, `step_read` and `step_write` for every cycle, and the rules of R21 to R28 follow from these four. -/

namespace Sys2Proof.Machine

/-! ### What a word does to its slot -/

/-- The write column of the register map (R24 to R26), beside `readSlot`: DATA feeds the low byte, CTRL with bit 0 set
restores the start values, and every other write is ignored. Any write drives `rdata = 0x0000` (R22). `exec_of_write`
says that this is what a write transaction does. -/
def writeSlot (r : Reg) (d : Half) (s : State) : State :=
  match r with
  | .data => (s.feedByte (d.extractLsb' 0 8)).quiet
  | .ctrl => if d.getLsbD 0 then s.clear.quiet else s.quiet
  | .crc | .sum | .crcl | .crch | .rsv6 | .rsv7 => s.quiet

theorem writeSlot_ctrl_of_set {d : Half} (h : d.getLsbD 0 = true) (s : State) :
    writeSlot .ctrl d s = s.clear.quiet := if_pos h

theorem writeSlot_ctrl_of_clear {d : Half} (h : d.getLsbD 0 = false) (s : State) :
    writeSlot .ctrl d s = s.quiet := if_neg (ne_true_of_eq_false h)

@[simp] theorem writeSlot_rdata (r : Reg) (d : Half) (s : State) : (writeSlot r d s).rdata = 0x0000#16 := by
  cases r with
  | ctrl =>
    cases h : d.getLsbD 0 with
    | false => rw [writeSlot_ctrl_of_clear h, State.quiet_rdata]
    | true => rw [writeSlot_ctrl_of_set h, State.quiet_rdata]
  | data | crc | sum | crcl | crch | rsv6 | rsv7 => rfl

/-- A write to any slot but DATA and CTRL is ignored (R26, R28). -/
theorem writeSlot_ignored {r : Reg} (hd : r ≠ .data) (hc : r ≠ .ctrl) (d : Half) (s : State) :
    writeSlot r d s = s.quiet := by
  cases r with
  | data => exact absurd rfl hd
  | ctrl => exact absurd rfl hc
  | crc | sum | crcl | crch | rsv6 | rsv7 => rfl

/-- A read drives the addressed slot's value and does nothing else (R22, R24). -/
theorem exec_of_read {T : TWord} (h : wField T = false) (s : State) :
    exec (decode T) s = .next (s.drive (readSlot (Reg.ofAddr (aField T)) s)) := by
  have hd : decode T = decodeRead T := by simp [decode, h]
  rw [hd, decodeRead]
  cases Reg.ofAddr (aField T) <;> rfl

/-- A write does what the write column says of the addressed slot (R24). -/
theorem exec_of_write {T : TWord} (h : wField T = true) (s : State) :
    exec (decode T) s = .next (writeSlot (Reg.ofAddr (aField T)) (dField T) s) := by
  have hd : decode T = decodeWrite T := by simp [decode, h]
  rw [hd, decodeWrite, bField_eq, iField_eq]
  cases Reg.ofAddr (aField T) with
  | ctrl =>
    cases hb : (dField T).getLsbD 0 with
    | false => rw [writeSlot_ctrl_of_clear hb]; rfl
    | true => rw [writeSlot_ctrl_of_set hb]; rfl
  | data | crc | sum | crcl | crch | rsv6 | rsv7 => rfl

/-- Every address is that of a register, so a claim about an address has one case for each register. -/
theorem exists_reg_addr (a : Addr) : ∃ r : Reg, r.addr = a := ⟨Reg.ofAddr a, Reg.addr_ofAddr a⟩

/-! ### The step at an edge, by what the ports carry -/

section
variable {s : State} {p : Ports} {rest : List Input}

theorem step_reset (h : s.inputs = .edge p :: rest) (hr : p.rst = true) :
    step s = .next (applyReset { s with inputs := rest }) := by
  rw [step_edge h, edgeAction_reset hr]

theorem step_transaction (h : s.inputs = .edge p :: rest) (hr : p.rst = false) (hs : p.sel = true) :
    step s = exec (decode p.word) { s with inputs := rest } := by
  rw [step_edge h, edgeAction_transaction hr hs]

theorem step_idle (h : s.inputs = .edge p :: rest) (hr : p.rst = false) (hs : p.sel = false) :
    step s = .next (idleCycle { s with inputs := rest }) := by
  rw [step_edge h, edgeAction_idle hr hs]

theorem step_read (h : s.inputs = .edge p :: rest) (hr : p.rst = false) (hs : p.sel = true) (hw : p.we = false) :
    step s = .next { s with inputs := rest, rdata := readSlot (Reg.ofAddr p.addr) s } := by
  have hv : readSlot (Reg.ofAddr p.addr) { s with inputs := rest } = readSlot (Reg.ofAddr p.addr) s :=
    readSlot_congr _ rfl rfl
  rw [step_transaction h hr hs, exec_of_read (by simp [Ports.word, hw]), Ports.word, aField_tword, hv, State.drive]

theorem step_write (h : s.inputs = .edge p :: rest) (hr : p.rst = false) (hs : p.sel = true) (hw : p.we = true) :
    step s = .next (writeSlot (Reg.ofAddr p.addr) p.wdata { s with inputs := rest }) := by
  rw [step_transaction h hr hs, exec_of_write (by simp [Ports.word, hw]), Ports.word, aField_tword, dField_tword]

end

/-- A word's cycle presents that word (R40). -/
@[simp] theorem word_ofWord (T : TWord) : (Ports.ofWord T).word = T := tword_fields T

/-! ### The input a step meets, and whether it stops there -/

/-- No transaction stops (R100). -/
theorem exec_next (i : Instr) (s : State) : ∃ t, exec i s = .next t := by
  obtain ⟨b, -, he⟩ | ⟨-, he⟩ | ⟨-, r, he⟩ := exec_cases i <;> exact ⟨_, he s⟩

/-- Only an undriven edge is outside the spec (R23). -/
theorem inSpec_eq_true_iff (i : Input) : inSpec i = true ↔ i ≠ .undriven := by
  cases i <;> simp [inSpec]

/-- A master with nothing left presents a driven edge, so an undriven one stands at the head of its list. -/
theorem takeInput_eq_undriven_iff (s : State) :
    (takeInput s).1 = .undriven ↔ ∃ rest, s.inputs = .undriven :: rest := by
  cases h : s.inputs with
  | nil => simp [takeInput_nil h]
  | cons i rest => simp [takeInput_cons h]

theorem step_fault_of_undriven {s : State} (h : (takeInput s).1 = .undriven) : step s = .fault .undrivenInput := by
  unfold step
  rcases hi : takeInput s with ⟨i, s'⟩
  rw [hi] at h
  cases h
  rfl

theorem step_next_of_inSpec {s : State} (h : inSpec (takeInput s).1 = true) : ∃ t, step s = .next t := by
  unfold step
  rcases hi : takeInput s with ⟨i, s'⟩
  rw [hi] at h
  cases i with
  | edge p =>
    dsimp only
    cases edgeAction p with
    | reset => exact ⟨_, rfl⟩
    | transaction T => exact exec_next (decode T) s'
    | idle => exact ⟨_, rfl⟩
  | noEdge p => exact ⟨_, rfl⟩
  | powerLoss => exact ⟨_, rfl⟩
  | undriven => cases h

/-! ### The obligations on one cycle and on one transaction -/

/-- Settles O4: the first clause is `step_transaction`; for the second, a table word that decodes is a number below
2^20, whose cycle stands at the head of the list and presents that word. -/
theorem stepRunsTheDecodedTransaction : Obligations.StepRunsTheDecodedTransaction := by
  refine ⟨fun s p rest hr hs h => step_transaction h hr hs, fun s i nbits w h => ?_⟩
  cases hT : wordOfNumber (tableNumber nbits w) with
  | error e => simp [decodeTableWord, decodeNumber, hT, Except.map, Except.toOption] at h
  | ok T =>
    have hi : decode T = i := by simpa [decodeTableWord, decodeNumber, hT, Except.map, Except.toOption] using h
    have hin : (s.withFetchWord nbits w).inputs = .edge (Ports.ofWord T) :: s.inputs := by
      simp [State.withFetchWord, inputOfNumber, hT]
    rw [step_transaction hin rfl rfl, word_ofWord, hi]
    rfl

/-- Settles O3: the three branches of `edgeAction`, a transaction being a write or a read; that the words of FEED and
INIT are those of addresses 0 and 1 is read off `decode_tword`, register by register. -/
theorem edgeFollowsThePriority : Obligations.EdgeFollowsThePriority := by
  intro s p rest h
  refine ⟨step_reset h, fun hr hs hw => ⟨step_transaction h hr hs, ?_⟩, fun hr hidle => ?_⟩
  · rw [Ports.word, hw, decode_tword]
    obtain ⟨r, ha⟩ := exists_reg_addr p.addr
    rw [← ha, Reg.ofAddr_addr]
    cases r with
    | ctrl => cases p.wdata.getLsbD 0 <;> simp [Reg.addr]
    | data | crc | sum | crcl | crch | rsv6 | rsv7 => simp [Reg.addr]
  · cases hs : p.sel with
    | false => exact ⟨_, step_idle h hr hs, rfl, rfl, rfl, rfl⟩
    | true =>
      have hw : p.we = false := hidle.resolve_left (by simp [hs])
      exact ⟨_, step_read h hr hs hw, rfl, rfl, rfl, rfl⟩

/-- Settles O5: of the four kinds of cycle only a read drives a slot's value, and `readSlot` is taken in the state
before the edge. -/
theorem readDataComesFromTheStartOfTheCycle : Obligations.ReadDataComesFromTheStartOfTheCycle := by
  intro s p rest h
  cases hr : p.rst with
  | true => exact ⟨_, step_reset h hr, by simp [rdataDuring, applyReset, hr]⟩
  | false =>
    cases hs : p.sel with
    | false => exact ⟨_, step_idle h hr hs, by simp [rdataDuring, idleCycle, hs]⟩
    | true =>
      cases hw : p.we with
      | false => exact ⟨_, step_read h hr hs hw, by simp [rdataDuring, hr, hs, hw]⟩
      | true => exact ⟨_, step_write h hr hs hw, by simp [rdataDuring, hw]⟩

/-- Settles O6: `step_read` and `step_write` at each of the eight registers. -/
theorem registerMapReadsAndWrites : Obligations.RegisterMapReadsAndWrites := by
  intro s a d rest
  obtain ⟨r, rfl⟩ := exists_reg_addr a
  constructor <;> intro h
  · rw [step_read h rfl rfl rfl, Reg.ofAddr_addr]
    cases r <;> rfl
  · rw [step_write h rfl rfl rfl, Reg.ofAddr_addr]
    cases r with
    | ctrl =>
      cases hb : d.getLsbD 0 with
      | false => rw [writeSlot_ctrl_of_clear hb]; rfl
      | true => rw [writeSlot_ctrl_of_set hb]; rfl
    | data | crc | sum | crcl | crch | rsv6 | rsv7 => rfl

/-- Settles O40: a read drives a value that depends on CRC and SUM alone, so a second one drives it again; FEED and
INIT are run twice; and a write to a slot from 2 on is ignored. -/
theorem sideEffectsOfEveryTransaction : Obligations.SideEffectsOfEveryTransaction := by
  refine ⟨fun T s h => ?_, fun b s => ⟨_, _, rfl, rfl, rfl, rfl⟩, fun s => ⟨_, rfl, rfl⟩, fun T s h ha => ?_⟩
  · have hread : ∀ u, exec (decode T) u = .next (u.drive (readSlot (Reg.ofAddr (aField T)) u)) := exec_of_read h
    refine ⟨_, hread s, rfl, rfl, ?_⟩
    rw [hread, readSlot_congr (t := s) _ rfl rfl]
    rfl
  · obtain ⟨r, hr⟩ := exists_reg_addr (aField T)
    have hslot : 2 ≤ r.addr.toNat := by rw [hr]; exact ha
    have hd : r ≠ .data := by rintro rfl; exact absurd hslot (by decide)
    have hc : r ≠ .ctrl := by rintro rfl; exact absurd hslot (by decide)
    rw [exec_of_write h, ← hr, Reg.ofAddr_addr, writeSlot_ignored hd hc]
    exact ⟨_, rfl, rfl, rfl⟩

/-- Settles O44: every input but an undriven edge has a next state, and an undriven edge is a fault, never a
refusal. -/
theorem onlyAnUndrivenEdgeStopsTheModel : Obligations.OnlyAnUndrivenEdgeStopsTheModel := by
  intro s
  rw [← takeInput_eq_undriven_iff]
  by_cases hu : (takeInput s).1 = .undriven
  · rw [step_fault_of_undriven hu]
    simp [hu, inSpec]
  · obtain ⟨t, ht⟩ := step_next_of_inSpec ((inSpec_eq_true_iff _).mpr hu)
    simp [ht, hu]

end Sys2Proof.Machine

/-! ## The frames of the wire

A master that checks a frame presents transactions and reads the result. `steps_transactions` runs any program of
transactions once and for all; `steps_cksum8` is CKSUM8 as one such run, and the frames' byte layout is list
arithmetic. -/

namespace Sys2Proof.Machine

/-! ### A run of transactions -/

/-- One transaction per cycle, any number of them: none stops, and what they leave in CRC and SUM is
`afterTransactions` (R35, R100). -/
theorem steps_transactions (ws : List TWord) {s : State} {rest : List Input}
    (h : s.inputs = transactions ws ++ rest) :
    ∃ t, steps ws.length s = .next t ∧ (t.crc, t.sum) = afterTransactions (s.crc, s.sum) ws ∧ t.inputs = rest := by
  induction ws generalizing s with
  | nil => exact ⟨s, rfl, rfl, h⟩
  | cons T ws ih =>
    have hstep : step s = exec (decode T) { s with inputs := transactions ws ++ rest } := by
      rw [← word_ofWord T]
      exact step_transaction h rfl rfl
    obtain ⟨u, hu⟩ := exec_next (decode T) { s with inputs := transactions ws ++ rest }
    have hacc : (u.crc, u.sum) = afterTransaction (s.crc, s.sum) T :=
      exec_accumulators (s := { s with inputs := transactions ws ++ rest }) hu
    obtain ⟨t, ht, hta, htin⟩ := ih (exec_inputs_draws hu).1
    refine ⟨t, ?_, ?_, htin⟩
    · rw [List.length_cons, steps_succ (hstep.trans hu), ht]
    · rw [hta, hacc, afterTransactions_cons]

/-- After a run of transactions, a read leaves `rdata` at the addressed slot's value in the state the run leaves. -/
theorem steps_transactions_read (ws : List TWord) {T : TWord} (hT : wField T = false) {s : State}
    {rest : List Input} (h : s.inputs = transactions (ws ++ [T]) ++ rest) :
    ∃ t u, steps ws.length s = .next t ∧ steps (ws ++ [T]).length s = .next u ∧
      (t.crc, t.sum) = afterTransactions (s.crc, s.sum) ws ∧
      u = { t with inputs := rest, rdata := readSlot (Reg.ofAddr (aField T)) t } := by
  have hcut : s.inputs = transactions ws ++ (transactions [T] ++ rest) := by
    rw [h, transactions, List.map_append, List.append_assoc]; rfl
  obtain ⟨t, ht, hacc, hin⟩ := steps_transactions ws hcut
  have hread := step_read (p := Ports.ofWord T) hin rfl rfl hT
  refine ⟨t, _, ht, ?_, hacc, rfl⟩
  rw [List.length_append, steps_add ht]
  exact steps_succ hread 0

/-! ### The words a checking master presents -/

/-- The assembler's word of a FEED line is the encoder's (R46). -/
theorem basicWord_feed (b : Byte) : basicWord (.feed b.toNat) = [encode (.feed b)] := by
  have hw : 0x80000#20 ||| BitVec.ofNat 20 b.toNat = encode (.feed b) := by
    revert b; decide
  rw [basicWord, hw]

/-- So FEED lines become the words of their FEEDs, in order. -/
theorem basicWord_feeds (bs : List Byte) :
    ((bs.map BitVec.toNat).map AsmLine.feed).flatMap basicWord = bs.map fun b => encode (.feed b) := by
  induction bs with
  | nil => rfl
  | cons b bs ih => rw [List.map_cons, List.map_cons, List.flatMap_cons, basicWord_feed, ih]; rfl

/-- A byte fits the FEED operand, so a line over bytes is never refused (R46). -/
theorem all_byteFits (bs : List Byte) : (bs.map BitVec.toNat).all byteFits = true := by
  rw [List.all_map, List.all_eq_true]
  exact fun b _ => decide_eq_true (Nat.le_of_lt_succ b.isLt)

/-- CKSUM8 over bytes assembles to INIT, the FEEDs in order, and RDSUM (R47). -/
theorem assemble_cksum8 (bs : List Byte) :
    assemble (.cksum8 (bs.map BitVec.toNat)) =
      .ok ((encode .init :: bs.map fun b => encode (.feed b)) ++ [encode .rdSum]) := by
  have hfits : (AsmLine.cksum8 (bs.map BitVec.toNat)).wellFormed = true := all_byteFits bs
  rw [assemble, if_pos hfits, expand, List.flatMap_append, List.flatMap_cons, basicWord_feeds]
  rfl

/-- A FEED's word decodes to it (R62). -/
theorem decode_encode_feed (b : Byte) : decode (encode (.feed b)) = .feed b := by
  have hlow : (b.setWidth 16).extractLsb' 0 8 = b := by
    apply BitVec.eq_of_toNat_eq
    rw [BitVec.extractLsb'_toNat, BitVec.toNat_setWidth]
    omega
  rw [encode, decode_tword, hlow]
  rfl

/-- FEEDs run both step functions over their bytes in order (R62, R65). -/
theorem afterTransactions_feeds (bs : List Byte) (cm : Half × Byte) :
    afterTransactions cm (bs.map fun b => encode (.feed b)) = (bs.foldl crcStep cm.1, bs.foldl sumStep cm.2) := by
  induction bs generalizing cm with
  | nil => rfl
  | cons b bs ih => rw [List.map_cons, afterTransactions_cons, ih, afterTransaction, decode_encode_feed]; rfl

/-- An INIT and then FEEDs leave the two functions of the bytes, whatever was there before (R63, R65). -/
theorem afterTransactions_init_feeds (bs : List Byte) (cm : Half × Byte) :
    afterTransactions cm (encode .init :: bs.map fun b => encode (.feed b)) =
      (crc16Modbus bs, additiveChecksum bs) := by
  rw [afterTransactions_cons, afterTransactions_feeds]
  rfl

/-- CKSUM8 from any state ends with `rdata` at the additive checksum of its bytes (R47, R65). -/
theorem steps_cksum8 (bs : List Byte) {ws : List TWord} (hws : assemble (.cksum8 (bs.map BitVec.toNat)) = .ok ws)
    {s : State} {rest : List Input} (h : s.inputs = transactions ws ++ rest) :
    ∃ t, steps ws.length s = .next t ∧ t.rdata = (additiveChecksum bs).setWidth 16 := by
  rw [assemble_cksum8, Except.ok.injEq] at hws
  subst hws
  obtain ⟨t, u, -, hu, hacc, rfl⟩ := steps_transactions_read _ (by decide) h
  rw [afterTransactions_init_feeds, Prod.mk.injEq] at hacc
  obtain ⟨-, hsum⟩ := hacc
  exact ⟨_, hu, congrArg (BitVec.setWidth 16) hsum⟩

/-! ### The additive checksum as a number -/

theorem toNat_sumStep (m b : Byte) : (sumStep m b).toNat = (m.toNat + b.toNat) % 256 := by
  rw [sumStep_eq_add, BitVec.toNat_add]

theorem toNat_foldl_sumStep (bs : List Byte) (m : Byte) :
    (bs.foldl sumStep m).toNat = (m.toNat + (bs.map BitVec.toNat).sum) % 256 := by
  induction bs generalizing m with
  | nil => exact (Nat.mod_eq_of_lt m.isLt).symm
  | cons b bs ih =>
    rw [List.foldl_cons, ih, toNat_sumStep, List.map_cons, List.sum_cons]
    omega

/-- The additive checksum is the bytes' sum modulo 256 (R65). -/
theorem toNat_additiveChecksum (bs : List Byte) :
    (additiveChecksum bs).toNat = (bs.map BitVec.toNat).sum % 256 := by
  rw [additiveChecksum, toNat_foldl_sumStep, sumInit, BitVec.toNat_ofNat]
  simp

/-! ### The legacy frame's layout -/

section
variable (command : Byte) (data : Vector Byte 8)

theorem length_legacyBody : (legacyBody command data).length = 12 := by simp [legacyBody]

theorem length_legacyFrame : (legacyFrame command data).length = 13 := by
  simp [legacyFrame, length_legacyBody]

theorem legacyCovered_legacyFrame : legacyCovered (legacyFrame command data) = legacyBody command data :=
  List.take_left' (length_legacyBody command data)

theorem legacyFrame_getElem_12 :
    (legacyFrame command data)[12]? = some (additiveChecksum (legacyBody command data)) := by
  rw [legacyFrame, ← length_legacyBody command data, List.getElem?_concat_length]

end

/-! ### The BLE frame's layout -/

section
variable (body : List Byte)

theorem length_bleFrame : (bleFrame body).length = body.length + 2 := List.length_append

theorem bleCovered_bleFrame : bleCovered (bleFrame body) = body := by
  rw [bleCovered, length_bleFrame, Nat.add_sub_cancel, bleFrame, List.take_left]

theorem drop_bleFrame : (bleFrame body).drop body.length = crcTrailer (crc16Modbus body) := List.drop_left

theorem bleTrailerMatches_bleFrame : bleTrailerMatches (bleFrame body) = true := by
  rw [bleTrailerMatches, bleCovered_bleFrame, length_bleFrame, Nat.add_sub_cancel, drop_bleFrame, beq_self_eq_true]

end

/-- A byte zero-extended to the bus and cut back is the byte (R71). -/
theorem setWidth_setWidth_byte (b : Byte) : (b.setWidth 16).setWidth 8 = b := by
  rw [BitVec.setWidth_setWidth_of_le b (by decide), BitVec.setWidth_eq]

/-- The CRC of the read-info command, byte by byte (R33). -/
theorem crc16Modbus_readInfo :
    crc16Modbus [0xD2#8, 0x03#8, 0x00#8, 0x00#8, 0x00#8, 0x3E#8] = 0xB9D7#16 := by
  have h1 : crcStep crcInit 0xD2#8 = 0x1D3F#16 := by decide
  have h2 : crcStep 0x1D3F#16 0x03#8 = 0x111D#16 := by decide
  have h3 : crcStep 0x111D#16 0x00#8 = 0x09D1#16 := by decide
  have h4 : crcStep 0x09D1#16 0x00#8 = 0x5CC9#16 := by decide
  have h5 : crcStep 0x5CC9#16 0x00#8 = 0x569C#16 := by decide
  have h6 : crcStep 0x569C#16 0x3E#8 = 0xB9D7#16 := by decide
  simp only [crc16Modbus, List.foldl_cons, List.foldl_nil, h1, h2, h3, h4, h5, h6]

/-! ### The obligations -/

/-- Settles O47: byte 12 stands right after the twelve bytes of the body, its number is `toNat_additiveChecksum`, and
the master reads it by `steps_cksum8`. -/
theorem legacyFrameCarriesTheSumOfItsBody : Obligations.LegacyFrameCarriesTheSumOfItsBody := by
  intro command data frame
  have hcov : legacyCovered frame = legacyBody command data := legacyCovered_legacyFrame command data
  have hbyte : frame[12]? = some (additiveChecksum (legacyBody command data)) := legacyFrame_getElem_12 command data
  refine ⟨length_legacyFrame command data, hcov, ⟨_, hbyte, ?_, ?_⟩, ?_⟩
  · rw [← legacyCovered, hcov, toNat_additiveChecksum]
  · rw [hcov]
    exact ⟨_, assemble_cksum8 _, fun s rest h => steps_cksum8 _ (assemble_cksum8 _) h⟩
  · rw [legacyChecksumMatches, hbyte, hcov, beq_self_eq_true]

/-- Settles O48: the frame's layout for every body, the two reads for every state, and the read-info command by
running the CRC over its six bytes. -/
theorem bleFrameTrailerIsLowByteFirst : Obligations.BleFrameTrailerIsLowByteFirst := by
  refine ⟨fun body => ⟨bleCovered_bleFrame body, bleTrailerMatches_bleFrame body, drop_bleFrame body⟩,
    fun s => ⟨_, _, rfl, rfl, ?_⟩, ?_⟩
  · rw [crcTrailer, State.drive_rdata, State.drive_rdata, setWidth_setWidth_byte, setWidth_setWidth_byte]
  · rw [bleFrame, crc16Modbus_readInfo]
    rfl

end Sys2Proof.Machine

/-! ## The encoding of transactions

Every word is `tword we r.addr d` for a register `r`, so a claim about a word has one case for each slot and direction,
and `decode_tword` gives what it decodes to. `encode_decode_tword` says which bits of the write data come back from
decoding and encoding; the mask of R42 and the row of R43 both follow from it. -/

namespace Sys2Proof.Machine

/-! ### A word and its fields -/

/-- Every word is a register's word, read or written with some data (R24, R40). -/
theorem exists_tword_addr (T : TWord) : ∃ (we : Bool) (r : Reg) (d : Half), T = tword we r.addr d := by
  obtain ⟨r, hr⟩ := exists_reg_addr (aField T)
  exact ⟨wField T, r, dField T, by rw [hr, tword_fields]⟩

/-- AND acts on the three fields apart. -/
theorem tword_and (we we' : Bool) (a a' : Addr) (d d' : Half) :
    tword we a d &&& tword we' a' d' = tword (we && we') (a &&& a') (d &&& d') := by
  rw [tword, tword, BitVec.and_append, BitVec.and_append, BitVec.ofBool_and_ofBool, tword]

/-- Settles O26: the fields of a laid-out word are read back, and the words are the numbers below 2^20. -/
theorem wordIsTheCyclesThreeFields : Obligations.WordIsTheCyclesThreeFields := by
  refine ⟨fun we a d => ⟨wField_tword we a d, aField_tword we a d, dField_tword we a d⟩,
    fun T => ⟨word_ofWord T, rfl, rfl⟩, fun w h => ?_, fun w h => ?_⟩
  · rw [decodeNumber, wordOfNumber, if_pos h]
    rfl
  · rw [decodeNumber, wordOfNumber, if_neg (Nat.not_lt.mpr h)]
    rfl

/-! ### Decoding what was encoded -/

/-- FEED's byte survives its way over the data bus, and the word of every other row lays out the operand as it is. -/
theorem decode_encode (i : Instr) : decode (encode i) = i := by
  cases i with
  | feed b => exact decode_encode_feed b
  | init | ctlNop | wrCrc | wrSum | wrCrcl | wrCrch | wrRsv6 | wrRsv7
  | rdData | rdCtl | rdCrc | rdSum | rdCrcl | rdCrch | rdRsv6 | rdRsv7 => rw [encode, decode_tword]; rfl

/-- Settles O29: `decode_encode`. -/
theorem decodeOfEncodeIsTheInstruction : Obligations.DecodeOfEncodeIsTheInstruction := decode_encode

/-! ### Encoding what was decoded -/

/-- The bits of the write data that are a row's operand (R42): a FEED's byte, a CTRL write's bit 0, all the data of the
ignored writes, and none of a read's. `encode_decode_tword` says that these are what encoding keeps. -/
def operandBits (we : Bool) (r : Reg) : Half :=
  if we then
    match r with
    | .data => 0x00FF#16
    | .ctrl => 0x0001#16
    | .crc | .sum | .crcl | .crch | .rsv6 | .rsv7 => 0xFFFF#16
  else 0x0000#16

/-- The low byte of the write data, laid on the bus again. -/
theorem setWidth_extractLsb'_byte (d : Half) : (d.extractLsb' 0 8).setWidth 16 = d &&& 0x00FF#16 := by
  apply BitVec.eq_of_toNat_eq
  rw [BitVec.toNat_setWidth, BitVec.extractLsb'_toNat, BitVec.toNat_and, Nat.shiftRight_zero,
    show (0x00FF#16).toNat = 2 ^ 8 - 1 from rfl, Nat.and_two_pow_sub_one_eq_mod]
  omega

/-- A word comes back from decoding and encoding with the operand's bits of its data (R42, R46). -/
theorem encode_decode_tword (we : Bool) (r : Reg) (d : Half) :
    encode (decode (tword we r.addr d)) = tword we r.addr (d &&& operandBits we r) := by
  rw [decode_tword, Reg.ofAddr_addr]
  cases we with
  | false =>
    have hnone : d &&& operandBits false r = 0x0000#16 := BitVec.and_zero
    rw [hnone]
    cases r <;> rfl
  | true =>
    cases r with
    | data => exact congrArg (tword true _) (setWidth_extractLsb'_byte d)
    | ctrl =>
      have hbit : d &&& operandBits true .ctrl = (BitVec.ofBool (d.getLsbD 0)).setWidth 16 :=
        BitVec.and_one_eq_setWidth_ofBool_getLsbD
      rw [hbit]
      cases d.getLsbD 0 <;> rfl
    | crc | sum | crcl | crch | rsv6 | rsv7 =>
      exact congrArg (tword true _) BitVec.and_allOnes.symm

/-- The mask the word's bits choose is the operand's bits under whole fields `w` and `a`. -/
theorem encodeMask_tword (we : Bool) (r : Reg) (d : Half) :
    (if (tword we r.addr d).getLsbD 19 then
        (if (tword we r.addr d).extractLsb' 16 3 = 0#3 then 0xF00FF#20
        else if (tword we r.addr d).extractLsb' 16 3 = 1#3 then 0xF0001#20 else 0xFFFFF#20)
      else 0xF0000#20) = tword true 7#3 (operandBits we r) := by
  rw [← wField, ← aField, wField_tword, aField_tword]
  cases we <;> cases r <;> rfl

/-- Settles O30: the mask keeps the operand's bits of the data, as decoding and encoding do. -/
theorem encodeOfDecodeClearsIgnoredBits : Obligations.EncodeOfDecodeClearsIgnoredBits := by
  intro T
  obtain ⟨we, r, d, rfl⟩ := exists_tword_addr T
  have ha : r.addr &&& 7#3 = r.addr := BitVec.and_allOnes
  rw [encodeMask_tword, encode_decode_tword, tword_and, Bool.and_true, ha]

/-! ### The row a word selects -/

/-- A row's mask sees the fields `w` and `a` alone, but for two rows of writes, INIT and CTLNOP, which see bit 0 of
the data too (R43). -/
theorem opcodeTable_mask_cases : ∀ row ∈ opcodeTable,
    row.mask = tword true 7#3 0#16 ∨ (row.mask = tword true 7#3 1#16 ∧ row.pattern.getLsbD 19 = true) := by
  decide

/-- No read selects a row of writes. -/
theorem selects_read {row : OpRow} (hp : row.pattern.getLsbD 19 = true) (a : Addr) (d : Half) :
    row.selects (tword false a d) = false := by
  apply beq_false_of_ne
  intro h
  rw [← h, BitVec.getLsbD_and, ← wField, wField_tword] at hp
  cases hp

/-- The bits that are no operand do not choose the row: it is selected with them cleared as it is with them. -/
theorem selects_operandBits {row : OpRow} (hr : row ∈ opcodeTable) (we : Bool) (r : Reg) (d : Half) :
    row.selects (tword we r.addr (d &&& operandBits we r)) = row.selects (tword we r.addr d) := by
  obtain hm | ⟨hm, hp⟩ := opcodeTable_mask_cases row hr
  · simp only [OpRow.selects, hm, tword_and, BitVec.and_zero]
  · cases we with
    | false => rw [selects_read hp, selects_read hp]
    | true =>
      have hone : operandBits true r &&& 1#16 = 1#16 := by cases r <;> rfl
      simp only [OpRow.selects, hm, tword_and, BitVec.and_assoc, hone]

/-- So a word selects the rows that the word an assembler writes for it selects. -/
theorem rows_encode_decode (T : TWord) : Laws.TableRow.rows (encode (decode T)) = Laws.TableRow.rows T := by
  obtain ⟨we, r, d, rfl⟩ := exists_tword_addr T
  rw [encode_decode_tword]
  exact congrArg (List.map OpRow.mnemonic) (List.filter_congr fun row hr => selects_operandBits hr we r d)

/-- An assembler's word selects exactly its instruction's row. -/
theorem rows_encode (i : Instr) : Laws.TableRow.rows (encode i) = [i.mnemonic] := by
  cases i with
  | feed b => exact Laws.TableRow.feed b
  | init => exact Laws.TableRow.init
  | ctlNop => exact Laws.TableRow.ctlNop
  | wrCrc d => exact Laws.TableRow.wrCrc d
  | wrSum d => exact Laws.TableRow.wrSum d
  | wrCrcl d => exact Laws.TableRow.wrCrcl d
  | wrCrch d => exact Laws.TableRow.wrCrch d
  | wrRsv6 d => exact Laws.TableRow.wrRsv6 d
  | wrRsv7 d => exact Laws.TableRow.wrRsv7 d
  | rdData => exact Laws.TableRow.rdData
  | rdCtl => exact Laws.TableRow.rdCtl
  | rdCrc => exact Laws.TableRow.rdCrc
  | rdSum => exact Laws.TableRow.rdSum
  | rdCrcl => exact Laws.TableRow.rdCrcl
  | rdCrch => exact Laws.TableRow.rdCrch
  | rdRsv6 => exact Laws.TableRow.rdRsv6
  | rdRsv7 => exact Laws.TableRow.rdRsv7

/-- Settles O27: a word selects what the assembler's word for it selects, which is its instruction's row. -/
theorem everyWordSelectsExactlyItsRow : Obligations.EveryWordSelectsExactlyItsRow :=
  ⟨rfl, fun T => (rows_encode_decode T).symm.trans (rows_encode (decode T))⟩

/-! ### Reserved bits -/

/-- Bits 19:16 of a word are its fields `w` and `a` (R40). -/
theorem extractLsb'_16_4 (T : TWord) : T.extractLsb' 16 4 = BitVec.ofBool (wField T) ++ aField T := by
  have hw : BitVec.ofBool (wField T) = T.extractLsb' 19 1 := by
    apply BitVec.eq_of_getLsbD_eq
    intro i hi
    simp [wField, show i = 0 by omega]
  rw [hw]
  exact (BitVec.extractLsb'_append_extractLsb'_eq_extractLsb' (start₁ := 16) (len₁ := 3) (start₂ := 19) rfl).symm

/-- Two words with the same bits 19:16 have the same direction and the same address. -/
theorem wField_aField_eq {T U : TWord} (h : T.extractLsb' 16 4 = U.extractLsb' 16 4) :
    wField T = wField U ∧ aField T = aField U := by
  rw [extractLsb'_16_4, extractLsb'_16_4] at h
  have hw := congrArg (BitVec.extractLsb' 3 1) h
  have ha := congrArg (BitVec.extractLsb' 0 3) h
  rw [BitVec.extractLsb'_append_eq_left, BitVec.extractLsb'_append_eq_left, BitVec.ofBool_eq_iff_eq] at hw
  rw [BitVec.extractLsb'_append_eq_right, BitVec.extractLsb'_append_eq_right] at ha
  exact ⟨hw, ha⟩

/-- A write uses the low byte of its data at DATA, bit 0 at CTRL, and nothing at the other slots (R25, R26). -/
theorem writeSlot_congr {r : Reg} {d e : Half} (hd : r = .data → d.extractLsb' 0 8 = e.extractLsb' 0 8)
    (hc : r = .ctrl → d.getLsbD 0 = e.getLsbD 0) (s : State) : writeSlot r d s = writeSlot r e s := by
  cases r with
  | data => rw [writeSlot, hd rfl, writeSlot]
  | ctrl => rw [writeSlot, hc rfl, writeSlot]
  | crc | sum | crcl | crch | rsv6 | rsv7 => rfl

/-- Words that agree in bits 19:16, in the byte if a FEED and in bit 0 if a CTRL write, act alike (R45). -/
theorem exec_decode_congr {T U : TWord} (h : T.extractLsb' 16 4 = U.extractLsb' 16 4)
    (hb : T.extractLsb' 16 4 = 8#4 → bField T = bField U) (hi : T.extractLsb' 16 4 = 9#4 → iField T = iField U)
    (s : State) : exec (decode T) s = exec (decode U) s := by
  obtain ⟨hw, ha⟩ := wField_aField_eq h
  cases hT : wField T with
  | false => rw [exec_of_read hT, exec_of_read (hw.symm.trans hT), ha]
  | true =>
    have hrow : ∀ r, Reg.ofAddr (aField T) = r → T.extractLsb' 16 4 = BitVec.ofBool true ++ r.addr := by
      rintro r rfl
      rw [Reg.addr_ofAddr, ← hT, extractLsb'_16_4]
    rw [bField_eq, bField_eq] at hb
    rw [iField_eq, iField_eq] at hi
    rw [exec_of_write hT, exec_of_write (hw.symm.trans hT), ← ha]
    exact congrArg _ (writeSlot_congr (fun hr => hb (hrow .data hr)) (fun hr => hi (hrow .ctrl hr)) s)

/-- From 10 on, bits 19:16 are those of a write to a slot other than DATA and CTRL. -/
theorem fields_of_ten_le : ∀ (we : Bool) (a : Addr), 10 ≤ (BitVec.ofBool we ++ a).toNat →
    we = true ∧ a ≠ Reg.data.addr ∧ a ≠ Reg.ctrl.addr := by
  decide

/-- At 9, bits 19:16 are those of a write to CTRL. -/
theorem fields_of_eq_nine : ∀ (we : Bool) (a : Addr), BitVec.ofBool we ++ a = 9#4 →
    we = true ∧ a = Reg.ctrl.addr := by
  decide

/-- The words of WRCRC to WRRSV7, and those of CTLNOP, are ignored writes. -/
theorem exec_of_ignored_write {T : TWord}
    (h : 10 ≤ (T.extractLsb' 16 4).toNat ∨ (T.extractLsb' 16 4 = 9#4 ∧ iField T = false)) (s : State) :
    exec (decode T) s = .next s.quiet := by
  obtain ⟨we, r, d, rfl⟩ := exists_tword_addr T
  rw [extractLsb'_16_4, wField_tword, aField_tword, iField_eq, dField_tword] at h
  obtain h | ⟨h, hbit⟩ := h
  · obtain ⟨rfl, hd, hc⟩ := fields_of_ten_le we r.addr h
    rw [exec_of_write (wField_tword _ _ _), aField_tword, Reg.ofAddr_addr,
      writeSlot_ignored (fun e => hd (congrArg _ e)) (fun e => hc (congrArg _ e))]
  · obtain ⟨rfl, ha⟩ := fields_of_eq_nine we r.addr h
    rw [exec_of_write (wField_tword _ _ _), aField_tword, dField_tword, ha, Reg.ofAddr_addr,
      writeSlot_ctrl_of_clear hbit]

/-- Settles O31: `exec_next`, `exec_decode_congr` and `exec_of_ignored_write`. -/
theorem reservedBitsAreIgnored : Obligations.ReservedBitsAreIgnored :=
  ⟨fun T s => exec_next (decode T) s, fun _ _ s h hb hi => exec_decode_congr h hb hi s,
    fun _ s h => ⟨_, exec_of_ignored_write h s, rfl, rfl⟩⟩

end Sys2Proof.Machine

/-! ## The assembler

The table of R46 writes words as numbers. Each is the word `encode` lays out, so that what a line assembles to, what it
decodes to and what it does when presented are said of instructions. -/

namespace Sys2Proof.Machine

/-! ### The words of a line -/

theorem assemble_of_wellFormed {l : AsmLine} (h : l.wellFormed = true) :
    assemble l = .ok ((expand l).flatMap basicWord) := if_pos h

theorem assemble_of_illFormed {l : AsmLine} (h : l.wellFormed = false) :
    assemble l = .error .operandTooLarge := if_neg (ne_true_of_eq_false h)

/-- The fields laid out by shifts, as R46 writes a word. -/
theorem tword_eq_shifts (we : Bool) (a : Addr) (d : Half) :
    tword we a d = ((BitVec.ofBool we).setWidth 20 <<< 19) ||| (a.setWidth 20 <<< 16) ||| d.setWidth 20 :=
  calc
    tword we a d = (BitVec.ofBool we ++ a ++ d).setWidth 20 := (BitVec.setWidth_eq _).symm
    _ = _ := BitVec.setWidth_append_append_eq_shiftLeft_setWidth_or

theorem assemble_wr (r : Reg) {d : Nat} (h : d ≤ 0xFFFF) :
    assemble (.wr r d) = .ok [tword true r.addr (BitVec.ofNat 16 d)] := by
  have hd : (BitVec.ofNat 16 d).setWidth 20 = BitVec.ofNat 20 d :=
    BitVec.setWidth_ofNat_of_le_of_lt (by decide) (Nat.lt_succ_of_le h)
  have hfits : (AsmLine.wr r d).wellFormed = true := decide_eq_true h
  rw [assemble_of_wellFormed hfits, tword_eq_shifts, hd]
  rfl

theorem assemble_rd (r : Reg) : assemble (.rd r) = .ok [tword false r.addr 0#16] := by
  rw [assemble_of_wellFormed rfl]
  cases r <;> rfl

/-- `basicWord_feed` for a number that fits. -/
theorem feedWord_eq_encode {b : Nat} (h : b ≤ 255) :
    0x80000#20 ||| BitVec.ofNat 20 b = encode (.feed (BitVec.ofNat 8 b)) := by
  have hword := basicWord_feed (BitVec.ofNat 8 b)
  rw [BitVec.toNat_ofNat, Nat.mod_eq_of_lt (Nat.lt_succ_of_le h)] at hword
  exact List.singleton_injective hword

theorem assemble_feed {b : Nat} (h : b ≤ 255) :
    assemble (.feed b) = .ok [0x80000#20 ||| BitVec.ofNat 20 b] :=
  assemble_of_wellFormed (decide_eq_true h)

/-- A write of a byte to DATA is its FEED (R46). -/
theorem assemble_wr_data {d : Nat} (h : d ≤ 255) : assemble (.wr .data d) = assemble (.feed d) := by
  have hd : (BitVec.ofNat 8 d).setWidth 16 = BitVec.ofNat 16 d :=
    BitVec.setWidth_ofNat_of_le_of_lt (by decide) (Nat.lt_succ_of_le h)
  rw [assemble_feed h, feedWord_eq_encode h, assemble_wr .data (h.trans (by decide)), encode, hd]

/-- Settles O32: the words of FEED and WR are those of the encoder where the operand fits, and the other lines hold no
operand. -/
theorem assemblerWritesTheWordsOfTheTable : Obligations.AssemblerWritesTheWordsOfTheTable := by
  refine ⟨fun b h => ⟨assemble_feed h, ?_⟩, fun b h => ?_, fun r d h => assemble_wr r h, fun r d h => ?_,
    assemble_rd, fun d h => assemble_wr_data (Nat.le_of_lt_succ h), rfl, rfl, rfl, rfl, rfl, rfl⟩
  · rw [feedWord_eq_encode h, decode_encode]
  · exact assemble_of_illFormed (decide_eq_false (Nat.not_le.mpr h))
  · exact assemble_of_illFormed (decide_eq_false (Nat.not_le.mpr h))

/-! ### The pseudo-instructions -/

/-- FEEDS over bytes assembles to their FEEDs in order (R47). -/
theorem assemble_feeds (bs : List Byte) :
    assemble (.feeds (bs.map BitVec.toNat)) = .ok (bs.map fun b => encode (.feed b)) := by
  have hfits : (AsmLine.feeds (bs.map BitVec.toNat)).wellFormed = true := all_byteFits bs
  rw [assemble_of_wellFormed hfits, expand, basicWord_feeds]

/-- CRC16 over bytes assembles to INIT, the FEEDs in order, and RDCRC (R47). -/
theorem assemble_crc16 (bs : List Byte) :
    assemble (.crc16 (bs.map BitVec.toNat)) =
      .ok ((encode .init :: bs.map fun b => encode (.feed b)) ++ [encode .rdCrc]) := by
  have hfits : (AsmLine.crc16 (bs.map BitVec.toNat)).wellFormed = true := all_byteFits bs
  rw [assemble_of_wellFormed hfits, expand, List.flatMap_append, List.flatMap_cons, basicWord_feeds]
  rfl

/-- The step at an assembler's word runs its instruction. -/
theorem step_encode {i : Instr} {s : State} {rest : List Input}
    (h : s.inputs = .edge (Ports.ofWord (encode i)) :: rest) : step s = exec i { s with inputs := rest } := by
  rw [step_transaction h rfl rfl, word_ofWord, decode_encode]

/-- FEEDS from any state folds both step functions over the bytes (R47, R65). -/
theorem steps_feeds (bs : List Byte) {s : State} {rest : List Input}
    (h : s.inputs = transactions (bs.map fun b => encode (.feed b)) ++ rest) :
    ∃ t, steps bs.length s = .next t ∧ t.crc = bs.foldl crcStep s.crc ∧ t.sum = bs.foldl sumStep s.sum ∧
      t.inputs = rest := by
  obtain ⟨t, ht, hacc, hin⟩ := steps_transactions _ h
  rw [afterTransactions_feeds, Prod.mk.injEq] at hacc
  obtain ⟨hcrc, hsum⟩ := hacc
  exact ⟨t, by rw [← ht, List.length_map], hcrc, hsum, hin⟩

/-- INIT, FEEDs and a read from any state drive the slot's value where the accumulators are the two functions of the
bytes (R47, R65). -/
theorem steps_init_feeds_read (bs : List Byte) {T : TWord} (hT : wField T = false) {s : State} {rest : List Input}
    (h : s.inputs = transactions ((encode .init :: bs.map fun b => encode (.feed b)) ++ [T]) ++ rest) :
    ∃ t u, steps (bs.length + 2) s = .next u ∧ t.crc = crc16Modbus bs ∧ t.sum = additiveChecksum bs ∧
      u.rdata = readSlot (Reg.ofAddr (aField T)) t ∧ u.inputs = rest := by
  obtain ⟨t, u, -, hu, hacc, rfl⟩ := steps_transactions_read _ hT h
  rw [afterTransactions_init_feeds, Prod.mk.injEq] at hacc
  obtain ⟨hcrc, hsum⟩ := hacc
  have hlen : ((encode .init :: bs.map fun b => encode (.feed b)) ++ [T]).length = bs.length + 2 := by simp
  rw [hlen] at hu
  exact ⟨t, _, hu, hcrc, hsum, rfl, rfl⟩

/-- RDTRAILER from any state reads the two bytes of CRC in wire order (R33, R47). -/
theorem steps_rdTrailer {s : State} {rest : List Input}
    (h : s.inputs = transactions [encode .rdCrcl, encode .rdCrch] ++ rest) :
    ∃ t u, steps 1 s = .next t ∧ steps 2 s = .next u ∧ u.inputs = rest ∧
      [t.rdata.setWidth 8, u.rdata.setWidth 8] = crcTrailer s.crc := by
  have hrun : ∃ t, step s = .next t ∧ t.crc = s.crc ∧ t.rdata = (crcLow s.crc).setWidth 16 ∧
      t.inputs = transactions [encode .rdCrch] ++ rest := ⟨_, step_encode h, rfl, rfl, rfl⟩
  obtain ⟨t, ht, hcrc, hlow, hin⟩ := hrun
  have hu : step t = .next { t with inputs := rest, rdata := (crcHigh t.crc).setWidth 16 } := step_encode hin
  refine ⟨t, _, steps_succ ht 0, (steps_succ ht 1).trans (steps_succ hu 0), rfl, ?_⟩
  rw [hlow, hcrc, setWidth_setWidth_byte, setWidth_setWidth_byte, crcTrailer]

/-- Settles O33: the words by the lemmas on `assemble`, the results by the runs above. -/
theorem pseudoInstructionsGiveTheirResults : Obligations.PseudoInstructionsGiveTheirResults := by
  refine ⟨⟨rfl, fun s rest h => steps_succ (step_encode h) 0⟩,
    fun bs => ⟨assemble_feeds bs, fun s rest h => steps_feeds bs h⟩,
    fun bs => ⟨assemble_crc16 bs, fun s rest h => ?_⟩, fun bs => ⟨assemble_cksum8 bs, fun s rest h => ?_⟩,
    ⟨rfl, fun s rest h => steps_rdTrailer h⟩⟩
  · obtain ⟨t, u, hu, hcrc, -, hread, hin⟩ := steps_init_feeds_read bs (by decide) h
    exact ⟨u, hu, hread.trans hcrc, hin⟩
  · obtain ⟨t, u, hu, -, hsum, hread, hin⟩ := steps_init_feeds_read bs (by decide) h
    exact ⟨u, hu, hread.trans (congrArg (BitVec.setWidth 16) hsum), hin⟩

end Sys2Proof.Machine

/-! ## The two engines

`crcStep` meets the byte once, at the low end, and then shifts. The serial form of R60 meets one bit of it in each
iteration; `crcBits_xor_byte` says how far the two are apart after each. Linearity (`crcBits_xor`) and
`crcBits_of_low_zero`, that zero low bits only shift out, give the byte-table form `crcStep_eq_table`, and the residue
law and the fixed points of a zero byte follow from the table. -/

namespace Sys2Proof.Machine

/-! ### The loop of R60 -/

theorem crcBits_succ (n : Nat) (c : Half) : crcBits (n + 1) c = crcBit (crcBits n c) := by
  induction n generalizing c with
  | zero => rfl
  | succ n ih => exact ih (crcBit c)

/-- The iterations as a fold over their numbers. -/
theorem crcBits_eq_foldl (n : Nat) (c : Half) : crcBits n c = (List.range n).foldl (fun r _ => crcBit r) c := by
  induction n with
  | zero => rfl
  | succ n ih => rw [crcBits_succ, ih, List.range_succ, List.foldl_append]; rfl

/-- Iteration `k` of the serial form, which takes bit `k` of the byte (R60). `crcStep_eq_serial` says that eight of
them are `crcStep`. -/
def crcSerialBit (b : Byte) (r : Half) (k : Nat) : Half :=
  if (r.getLsbD 0 ^^ b.getLsbD k) then (r >>> 1) ^^^ crcPoly else r >>> 1

/-- One iteration on a register that still holds the byte's bits from `k` on at its low end. -/
theorem crcBit_xor_byte (r : Half) (b : Byte) (k : Nat) :
    crcBit (r ^^^ (b.setWidth 16 >>> k)) = crcSerialBit b r k ^^^ (b.setWidth 16 >>> (k + 1)) := by
  have hlow : (b.setWidth 16 >>> k).getLsbD 0 = b.getLsbD k := by
    rw [BitVec.getLsbD_ushiftRight, BitVec.getLsbD_setWidth]
    by_cases hk : k < 16
    · simp [hk]
    · simp [hk, BitVec.getLsbD_of_ge b k (by omega)]
  rw [crcBit, crcSerialBit, BitVec.getLsbD_xor, hlow, BitVec.ushiftRight_xor_distrib, ← BitVec.shiftRight_add]
  cases r.getLsbD 0 ^^ b.getLsbD k with
  | false => rfl
  | true => simp only [if_true]; ac_rfl

/-- After `n` iterations the loop and the serial form differ by the bits of the byte not yet taken. -/
theorem crcBits_xor_byte (c : Half) (b : Byte) (n : Nat) :
    crcBits n (c ^^^ b.setWidth 16) = (List.range n).foldl (crcSerialBit b) c ^^^ (b.setWidth 16 >>> n) := by
  induction n with
  | zero => rw [BitVec.ushiftRight_zero]; rfl
  | succ n ih => rw [crcBits_succ, ih, crcBit_xor_byte, List.range_succ, List.foldl_append]; rfl

theorem setWidth_byte_ushiftRight (b : Byte) : (b.setWidth 16 : Half) >>> 8 = 0x0000#16 := by
  apply BitVec.eq_of_toNat_eq
  rw [BitVec.toNat_ushiftRight, BitVec.toNat_setWidth, Nat.shiftRight_eq_div_pow, BitVec.toNat_ofNat]
  omega

/-- After eight no bit of the byte is left to take. -/
theorem crcStep_eq_serial (c : Half) (b : Byte) : crcStep c b = (List.range 8).foldl (crcSerialBit b) c := by
  rw [crcStep, crcBits_xor_byte, setWidth_byte_ushiftRight, BitVec.xor_zero]

/-- Settles O7: `crcBits_eq_foldl`, `crcStep_eq_serial`, and the read-info command's CRC. -/
theorem crcStepIsTheReflectedLoop : Obligations.CrcStepIsTheReflectedLoop :=
  ⟨fun _ _ => crcBits_eq_foldl 8 _, crcStep_eq_serial, crc16Modbus_readInfo⟩

/-- Settles O8: the definition of `sumStep`, and `toNat_sumStep`. -/
theorem sumStepAddsModulo256 : Obligations.SumStepAddsModulo256 := fun s b => ⟨rfl, toNat_sumStep s b⟩

/-! ### The folds -/

@[simp] theorem crc16Modbus_nil : crc16Modbus [] = crcInit := rfl

@[simp] theorem additiveChecksum_nil : additiveChecksum [] = sumInit := rfl

theorem crc16Modbus_append (bs cs : List Byte) : crc16Modbus (bs ++ cs) = cs.foldl crcStep (crc16Modbus bs) :=
  List.foldl_append

theorem additiveChecksum_append (bs cs : List Byte) :
    additiveChecksum (bs ++ cs) = cs.foldl sumStep (additiveChecksum bs) :=
  List.foldl_append

/-- Settles O9: the folds are the definitions, and the sum is `toNat_additiveChecksum`. -/
theorem enginesFoldTheirStepFunctions : Obligations.EnginesFoldTheirStepFunctions :=
  ⟨fun _ => rfl, fun _ => rfl, toNat_additiveChecksum, crc16Modbus_nil, additiveChecksum_nil⟩

/-! ### Linearity and the byte table -/

theorem crcStep_xor (c₁ c₂ : Half) (b₁ b₂ : Byte) :
    crcStep (c₁ ^^^ c₂) (b₁ ^^^ b₂) = crcStep c₁ b₁ ^^^ crcStep c₂ b₂ := by
  have hregroup :
      c₁ ^^^ c₂ ^^^ (b₁ ^^^ b₂).setWidth 16 = (c₁ ^^^ b₁.setWidth 16) ^^^ (c₂ ^^^ b₂.setWidth 16) := by
    rw [BitVec.setWidth_xor]
    ac_rfl
  rw [crcStep, hregroup, crcBits_xor, crcStep, crcStep]

/-- Where the low `n` bits are 0, the polynomial never enters, and `n` iterations only shift (R67). -/
theorem crcBits_of_low_zero {n : Nat} {c : Half} (h : ∀ i < n, c.getLsbD i = false) : crcBits n c = c >>> n := by
  induction n with
  | zero => exact (BitVec.ushiftRight_zero c).symm
  | succ n ih =>
    have hlow : (c >>> n).getLsbD 0 = false := by
      rw [BitVec.getLsbD_ushiftRight]
      exact h n (Nat.lt_succ_self n)
    rw [crcBits_succ, ih fun i hi => h i (Nat.lt_succ_of_lt hi), crcBit, hlow, BitVec.shiftRight_add]
    rfl

/-- A register's upper byte in its place, and its low byte. -/
theorem half_eq_high_xor_low (c : Half) : c = (c >>> 8 <<< 8) ^^^ (crcLow c).setWidth 16 := by
  apply BitVec.eq_of_getLsbD_eq
  intro i hi
  by_cases hlow : i < 8
  · simp [crcLow, hi, hlow]
  · simp [crcLow, hi, hlow, show 8 + (i - 8) = i by omega]

/-- Eight iterations bring the upper byte down as it is. -/
theorem crcBits_high_byte (c : Half) : crcBits 8 (c >>> 8 <<< 8) = c >>> 8 := by
  have hzero : ∀ i < 8, (c >>> 8 <<< 8).getLsbD i = false := fun i hi => by simp [hi]
  rw [crcBits_of_low_zero hzero]
  apply BitVec.eq_of_getLsbD_eq
  intro i hi
  by_cases hlow : i < 8
  · simp [show 8 + i < 16 by omega]
  · simp [show 16 ≤ 8 + i by omega]

/-- The byte-table form (R67): the upper byte shifts down, and the low byte with the input byte picks the entry. -/
theorem crcStep_eq_table (c : Half) (b : Byte) : crcStep c b = (c >>> 8) ^^^ crcStep 0x0000#16 (crcLow c ^^^ b) := by
  have hhigh : crcStep (c >>> 8 <<< 8) 0x00#8 = c >>> 8 := by
    rw [crcStep, BitVec.setWidth_zero, BitVec.xor_zero, crcBits_high_byte]
  have hlow : crcStep ((crcLow c).setWidth 16) b = crcStep 0x0000#16 (crcLow c ^^^ b) := by
    rw [crcStep, crcStep, BitVec.zero_xor, BitVec.setWidth_xor]
  calc
    crcStep c b = crcStep ((c >>> 8 <<< 8) ^^^ (crcLow c).setWidth 16) (0x00#8 ^^^ b) := by
      rw [← half_eq_high_xor_low, BitVec.zero_xor]
    _ = (c >>> 8) ^^^ crcStep 0x0000#16 (crcLow c ^^^ b) := by rw [crcStep_xor, hhigh, hlow]

theorem crcStep_zero_zero : crcStep 0x0000#16 0x00#8 = 0x0000#16 := by decide

theorem crcLow_xor_setWidth (c : Half) (b : Byte) : crcLow (c ^^^ b.setWidth 16) = crcLow c ^^^ b := by
  rw [crcLow, BitVec.extractLsb'_xor, crcLow]
  congr 1
  apply BitVec.eq_of_getLsbD_eq
  intro i hi
  simp [hi, show i < 16 by omega]

/-- Settles O10: `crcStep_xor`, `crcStep_eq_table`, and two entries of the table. -/
theorem crcStepLinearAndTableLaws : Obligations.CrcStepLinearAndTableLaws := by
  refine ⟨crcStep_xor, fun c b => ?_, crcStep_zero_zero, by decide⟩
  rw [← crcLow, crcLow_xor_setWidth]
  exact crcStep_eq_table c b

/-! ### The residue -/

/-- A byte equal to the register's low byte leaves the upper byte alone, shifted down (R68). -/
theorem crcStep_crcLow (c : Half) : crcStep c (crcLow c) = c >>> 8 := by
  rw [crcStep_eq_table, BitVec.xor_self, crcStep_zero_zero, BitVec.xor_zero]

theorem crcLow_ushiftRight (c : Half) : crcLow (c >>> 8) = crcHigh c := by
  apply BitVec.eq_of_getLsbD_eq
  intro i hi
  simp [crcLow, crcHigh, hi]

/-- So the trailer of a register in wire order takes it to 0 (R33, R68). -/
theorem foldl_crcStep_crcTrailer (c : Half) : (crcTrailer c).foldl crcStep c = 0x0000#16 := by
  have hshift : c >>> 8 >>> 8 = 0x0000#16 := by
    rw [← BitVec.shiftRight_add]
    exact BitVec.ushiftRight_eq_zero (Nat.le_refl 16)
  rw [crcTrailer, List.foldl_cons, crcStep_crcLow, ← crcLow_ushiftRight, List.foldl_cons, crcStep_crcLow, hshift,
    List.foldl_nil]

theorem crc16Modbus_append_crcTrailer (bs : List Byte) :
    crc16Modbus (bs ++ crcTrailer (crc16Modbus bs)) = 0x0000#16 := by
  rw [crc16Modbus_append, foldl_crcStep_crcTrailer]

/-- Settles O11: `crc16Modbus_append_crcTrailer`; for the opposite order the two bytes after the read-info command's
CRC are run one by one. -/
theorem frameWithTrailerLeavesZeroResidue : Obligations.FrameWithTrailerLeavesZeroResidue := by
  refine ⟨crc16Modbus_append_crcTrailer, ?_⟩
  intro bs
  have hcrc : crc16Modbus bs = 0xB9D7#16 := crc16Modbus_readInfo
  have hhigh : crcStep 0xB9D7#16 ((0xB9D7#16).extractLsb' 8 8) = 0xEC38#16 := by decide
  have hlow : crcStep 0xEC38#16 ((0xB9D7#16).extractLsb' 0 8) = 0x8CAD#16 := by decide
  rw [crc16Modbus_append, hcrc, List.foldl_cons, hhigh, List.foldl_cons, hlow, List.foldl_nil]

/-! ### The laws of the checksum -/

/-- Settles O12: the first three laws are laws of the bytes' sum modulo 256 (`toNat_additiveChecksum`), the last one is
of two additions. -/
theorem checksumLaws : Obligations.ChecksumLaws := by
  refine ⟨fun bs => Nat.le_of_lt_succ (additiveChecksum bs).isLt, fun bs cs h => ?_, fun bs cs => ?_, fun s b => ?_⟩
  · apply BitVec.eq_of_toNat_eq
    rw [toNat_additiveChecksum, toNat_additiveChecksum, (h.map BitVec.toNat).sum_nat]
  · simp only [toNat_additiveChecksum]
    rw [List.map_append, List.sum_append_nat, Nat.add_mod]
  · apply BitVec.eq_of_toNat_eq
    rw [toNat_sumStep, toNat_sumStep, BitVec.toNat_ofNat]
    omega

/-! ### The values a zero byte leaves -/

theorem crcHigh_append_crcLow (c : Half) : crcHigh c ++ crcLow c = c :=
  calc
    crcHigh c ++ crcLow c = c.extractLsb' 0 16 :=
      BitVec.extractLsb'_append_extractLsb'_eq_extractLsb' (start₁ := 0) (len₁ := 8) rfl
    _ = c := BitVec.extractLsb'_eq_self

theorem crcHigh_ushiftRight (c : Half) : crcHigh (c >>> 8) = 0x00#8 := by
  apply BitVec.eq_of_getLsbD_eq
  intro i hi
  simp [crcHigh, show 16 ≤ 8 + (8 + i) by omega]

/-- What the table must hold for a value that a zero byte leaves as it is: the entry of its low byte has its upper byte
above and the XOR of its two bytes below. -/
theorem table_of_fixed {c : Half} (h : crcStep c 0x00#8 = c) :
    crcHigh (crcStep 0x0000#16 (crcLow c)) = crcHigh c ∧
      crcLow (crcStep 0x0000#16 (crcLow c)) = crcHigh c ^^^ crcLow c := by
  have hentry : crcStep 0x0000#16 (crcLow c) = (c >>> 8) ^^^ c := by
    rw [crcStep_eq_table, BitVec.xor_zero] at h
    rw [← BitVec.xor_right_inj (c >>> 8), h, ← BitVec.xor_assoc, BitVec.xor_self, BitVec.zero_xor]
  rw [hentry]
  constructor
  · rw [crcHigh, BitVec.extractLsb'_xor, ← crcHigh, ← crcHigh, crcHigh_ushiftRight, BitVec.zero_xor]
  · rw [crcLow, BitVec.extractLsb'_xor, ← crcLow, ← crcLow, crcLow_ushiftRight]

/-- Only the entries of 0x00 and 0x01 have the XOR of their upper byte and their own index below. -/
theorem table_entries_of_fixed : ∀ l : Byte,
    crcLow (crcStep 0x0000#16 l) = crcHigh (crcStep 0x0000#16 l) ^^^ l →
      (crcHigh (crcStep 0x0000#16 l) = 0x00#8 ∧ l = 0x00#8) ∨
        (crcHigh (crcStep 0x0000#16 l) = 0xC0#8 ∧ l = 0x01#8) := by
  decide

theorem crcStep_C001_zero : crcStep 0xC001#16 0x00#8 = 0xC001#16 := by decide

/-- Settles O15: by `table_of_fixed` the low byte is one of the two in `table_entries_of_fixed`, and its entry gives
the upper byte. -/
theorem zeroByteFixesExactlyTwoValues : Obligations.ZeroByteFixesExactlyTwoValues := by
  refine fun c => ⟨fun h => ?_, ?_⟩
  · obtain ⟨hhigh, hlow⟩ := table_of_fixed h
    have hentry := table_entries_of_fixed (crcLow c)
    rw [hhigh] at hentry
    rw [← crcHigh_append_crcLow c]
    exact (hentry hlow).imp (fun ⟨hh, hl⟩ => by rw [hh, hl]; rfl) (fun ⟨hh, hl⟩ => by rw [hh, hl]; rfl)
  · rintro (rfl | rfl)
    · exact crcStep_zero_zero
    · exact crcStep_C001_zero

/-- Refutes O14: 0xC001 is fixed too. -/
theorem not_onlyZeroIsFixedByAZeroByte : ¬ Obligations.OnlyZeroIsFixedByAZeroByte :=
  fun h => absurd (h 0xC001#16 crcStep_C001_zero) (by decide)

end Sys2Proof.Machine

/-! ## The accumulate family

A row's match and mask (R43) fix a word's direction and address, and for INIT and CTLNOP bit 0 of its data; what such a
word decodes to is then `decode_tword`. -/

namespace Sys2Proof.Machine

/-! ### The words of the three rows -/

/-- A word that a mask over all of `w` and `a` sends to laid-out fields has these fields, but for the data bits outside
the mask (R43). -/
theorem eq_tword_of_masked {T : TWord} {we : Bool} {a : Addr} {m d : Half}
    (h : T &&& tword true 7#3 m = tword we a d) : ∃ e, T = tword we a e ∧ e &&& m = d := by
  have ha : aField T &&& 7#3 = aField T := BitVec.and_allOnes
  rw [← tword_fields T, tword_and, Bool.and_true, ha] at h
  have hfields := And.intro (congrArg wField h) (And.intro (congrArg aField h) (congrArg dField h))
  simp only [wField_tword, aField_tword, dField_tword] at hfields
  obtain ⟨hw, ha, hd⟩ := hfields
  exact ⟨dField T, by rw [← hw, ← ha, tword_fields], hd⟩

theorem decode_of_feed_row {T : TWord} (h : T &&& 0xF0000#20 = 0x80000#20) :
    decode T = .feed (T.extractLsb' 0 8) := by
  obtain ⟨e, rfl, -⟩ := eq_tword_of_masked (we := true) (a := 0#3) (m := 0x0000#16) (d := 0x0000#16) h
  rw [decode_tword, ← bField, bField_eq, dField_tword]
  rfl

/-- A CTRL write is INIT or CTLNOP by bit 0 of its data, whatever the other bits are (R44). -/
theorem decode_of_ctrl_row {T : TWord} (i : Bool)
    (h : T &&& 0xF0001#20 = tword true 1#3 ((BitVec.ofBool i).setWidth 16)) :
    decode T = if i then .init else .ctlNop := by
  obtain ⟨e, rfl, he⟩ := eq_tword_of_masked (m := 0x0001#16) h
  have hbit : e.getLsbD 0 = i := by
    have h0 := congrArg (BitVec.getLsbD · 0) he
    simpa using h0
  rw [decode_tword, hbit]
  rfl

/-! ### The three transactions -/

theorem exec_feed (b : Byte) (s : State) :
    exec (.feed b) s =
      .next { s with crc := crcStep s.crc b, sum := sumStep s.sum b, rdata := 0x0000#16 } := rfl

/-- Settles O13: the row's words by `decode_of_feed_row`, the effect by `exec_feed`, and a byte fed twice counts twice
in SUM. -/
theorem feedUpdatesBothEngines : Obligations.FeedUpdatesBothEngines := by
  refine ⟨fun T h => decode_of_feed_row h, exec_feed, by decide, crcStep_zero_zero, by decide, ?_,
    ⟨0x01#8, State.reset, _, _, exec_feed _ _, exec_feed _ _, fun h => ?_⟩, fun s hcrc hsum => ?_⟩
  · rw [decode_of_feed_row (by decide), decode_of_feed_row (by decide)]
    rfl
  · exact absurd (congrArg State.sum h) (by decide)
  · have hword : decode 0x800D2#20 = .feed 0xD2#8 := decode_of_feed_row (by decide)
    have hstep : crcStep 0xFFFF#16 0xD2#8 = 0x1D3F#16 := by decide
    have hadd : sumStep 0x00#8 0xD2#8 = 0xD2#8 := by decide
    rw [hword, exec_feed, hcrc, hsum, hstep, hadd]

/-- Settles O16: the row's words by `decode_of_ctrl_row` at bit 0 = 1, the rest by the meanings of INIT and RDCTL. -/
theorem initRestoresTheStartValues : Obligations.InitRestoresTheStartValues :=
  ⟨fun _ h => decode_of_ctrl_row true h, fun _ => ⟨rfl, rfl, rfl⟩, decode_of_ctrl_row true (by decide)⟩

/-- Settles O17: the row's words by `decode_of_ctrl_row` at bit 0 = 0, the effect by the meaning of CTLNOP. -/
theorem controlWriteWithoutInitBitDoesNothing : Obligations.ControlWriteWithoutInitBitDoesNothing :=
  ⟨fun _ h => decode_of_ctrl_row false h, fun _ => rfl, decode_of_ctrl_row false (by decide)⟩

end Sys2Proof.Machine

/-! ## The accumulators and the bytes fed

The law of R66 in two forms. One step: `Accumulates` passes from `fed` to `fedAfter` of the input the step meets, by the
cases of `step_cases`. A run from a known start: `afterTransactions` of transactions without INIT folds both step
functions over `bytesFed`. -/

namespace Sys2Proof.Machine

/-! ### What an input makes of the history -/

section
variable {p : Ports} {T : TWord} (fed : Option (List Byte))

theorem fedAfter_reset (h : edgeAction p = .reset) : fedAfter (.edge p) fed = some [] := by
  simp only [fedAfter, h]

theorem fedAfter_idle (h : edgeAction p = .idle) : fedAfter (.edge p) fed = fed := by
  simp only [fedAfter, h]

theorem fedAfter_feed {b : Byte} (h : edgeAction p = .transaction T) (hd : decode T = .feed b) :
    fedAfter (.edge p) fed = fed.map (· ++ [b]) := by
  simp only [fedAfter, h, hd]

theorem fedAfter_init (h : edgeAction p = .transaction T) (hd : decode T = .init) :
    fedAfter (.edge p) fed = some [] := by
  simp only [fedAfter, h, hd]

theorem fedAfter_of_not_writes (h : edgeAction p = .transaction T) (hw : writesAccumulators (decode T) = false) :
    fedAfter (.edge p) fed = fed := by
  simp only [fedAfter, h]
  cases hd : decode T with
  | feed b => rw [hd] at hw; cases hw
  | init => rw [hd] at hw; cases hw
  | ctlNop | wrCrc | wrSum | wrCrcl | wrCrch | wrRsv6 | wrRsv7
  | rdData | rdCtl | rdCrc | rdSum | rdCrcl | rdCrch | rdRsv6 | rdRsv7 => rfl

end

/-! ### When the law holds -/

section
variable {fed : Option (List Byte)} {s t : State}

theorem accumulates_none (s : State) : Accumulates none s := fun _ h => nomatch h

/-- The start values are the two functions of no bytes (R63, R65, R120). -/
theorem accumulates_nil (hc : s.crc = crcInit) (hm : s.sum = sumInit) : Accumulates (some []) s := by
  rintro _ ⟨⟩
  exact ⟨hc, hm⟩

/-- The law speaks of CRC and SUM alone. -/
theorem accumulates_congr (h : Accumulates fed s) (hc : t.crc = s.crc) (hm : t.sum = s.sum) :
    Accumulates fed t := by
  intro bs hbs
  rw [hc, hm]
  exact h bs hbs

/-- A byte into both engines is a byte more in the history (R62, R65). -/
theorem accumulates_feed {b : Byte} (h : Accumulates fed s) (hc : t.crc = crcStep s.crc b)
    (hm : t.sum = sumStep s.sum b) : Accumulates (fed.map (· ++ [b])) t := by
  intro cs hcs
  obtain ⟨bs, hbs, rfl⟩ := Option.map_eq_some_iff.mp hcs
  obtain ⟨hcrc, hsum⟩ := h bs hbs
  rw [hc, hm, hcrc, hsum, crc16Modbus_append, additiveChecksum_append]
  exact ⟨rfl, rfl⟩

/-- A transaction keeps the law, for the history it makes. -/
theorem accumulates_exec {p : Ports} {T : TWord} (h : Accumulates fed s) (ha : edgeAction p = .transaction T)
    (he : exec (decode T) s = .next t) : Accumulates (fedAfter (.edge p) fed) t := by
  obtain ⟨b, hd, hfeed⟩ | ⟨hd, hinit⟩ | ⟨hw, -⟩ := exec_cases (decode T)
  · rw [hfeed] at he
    cases he
    rw [fedAfter_feed fed ha hd]
    exact accumulates_feed h rfl rfl
  · rw [hinit] at he
    cases he
    rw [fedAfter_init fed ha hd]
    exact accumulates_nil rfl rfl
  · obtain ⟨hc, hm⟩ := exec_keeps_accumulators he hw
    rw [fedAfter_of_not_writes fed ha hw]
    exact accumulates_congr h hc hm

end

/-- Settles O34: over the cases of a step. Reset starts a history, a transaction is `accumulates_exec`, an idle cycle
and an interval without an edge keep accumulators and history, and a loss of power ends the history. -/
theorem everyStepKeepsTheAccumulatorLaw : Obligations.EveryStepKeepsTheAccumulatorLaw := by
  intro s t fed h hstep
  obtain ⟨hc, hm, -⟩ := takeInput_fields s
  have htaken : Accumulates fed (takeInput s).2 := accumulates_congr h hc hm
  obtain ⟨p, hi, ha, rfl⟩ | ⟨p, T, hi, ha, he⟩ | ⟨p, hi, ha, rfl⟩ | ⟨p, hi, rfl⟩ | ⟨hi, rfl⟩ := step_cases hstep <;>
    rw [hi]
  · rw [fedAfter_reset fed ha]
    exact accumulates_nil rfl rfl
  · exact accumulates_exec htaken ha he
  · rw [fedAfter_idle fed ha]
    exact accumulates_congr htaken rfl rfl
  · exact htaken
  · exact accumulates_none _

/-! ### A run from a known start -/

theorem bytesFed_cons_feed {T : TWord} {b : Byte} (hd : decode T = .feed b) (ws : List TWord) :
    bytesFed (T :: ws) = b :: bytesFed ws :=
  List.filterMap_cons_some (by rw [hd])

theorem bytesFed_cons_of_not_writes {T : TWord} (hw : writesAccumulators (decode T) = false) (ws : List TWord) :
    bytesFed (T :: ws) = bytesFed ws := by
  apply List.filterMap_cons_none
  cases hd : decode T with
  | feed b => rw [hd] at hw; cases hw
  | init | ctlNop | wrCrc | wrSum | wrCrcl | wrCrch | wrRsv6 | wrRsv7
  | rdData | rdCtl | rdCrc | rdSum | rdCrcl | rdCrch | rdRsv6 | rdRsv7 => rfl

theorem afterTransaction_feed {T : TWord} {b : Byte} (hd : decode T = .feed b) (cm : Half × Byte) :
    afterTransaction cm T = (crcStep cm.1 b, sumStep cm.2 b) := by
  simp only [afterTransaction, hd]

theorem afterTransaction_of_not_writes {T : TWord} (hw : writesAccumulators (decode T) = false) (cm : Half × Byte) :
    afterTransaction cm T = cm := by
  obtain ⟨c, m⟩ := cm
  obtain ⟨t, ht⟩ := exec_next (decode T) { State.reset with crc := c, sum := m }
  obtain ⟨hc, hm⟩ := exec_keeps_accumulators ht hw
  rw [← exec_accumulators ht, hc, hm]

/-- Without an INIT among them, transactions fold both step functions over the bytes they feed (R66). -/
theorem afterTransactions_of_no_init {ws : List TWord} (h : ∀ T ∈ ws, decode T ≠ .init) (cm : Half × Byte) :
    afterTransactions cm ws = ((bytesFed ws).foldl crcStep cm.1, (bytesFed ws).foldl sumStep cm.2) := by
  induction ws generalizing cm with
  | nil => rfl
  | cons T ws ih =>
    obtain ⟨hT, hws⟩ := List.forall_mem_cons.mp h
    rw [afterTransactions_cons, ih hws]
    obtain ⟨b, hd, -⟩ | ⟨hd, -⟩ | ⟨hw, -⟩ := exec_cases (decode T)
    · rw [afterTransaction_feed hd, bytesFed_cons_feed hd, List.foldl_cons, List.foldl_cons]
    · exact absurd hd hT
    · rw [afterTransaction_of_not_writes hw, bytesFed_cons_of_not_writes hw]

/-- A reset edge and an INIT cycle both leave the start values (R63, R120). -/
theorem step_start {s : State} {p : Ports} {rest : List Input} (h : s.inputs = .edge p :: rest)
    (hp : p.rst = true ∨ p.sel = true ∧ decode p.word = .init) :
    ∃ t, step s = .next t ∧ t.crc = crcInit ∧ t.sum = sumInit ∧ t.inputs = rest := by
  cases hr : p.rst with
  | true => exact ⟨_, step_reset h hr, rfl, rfl, rfl⟩
  | false =>
    obtain ⟨hs, hd⟩ := hp.resolve_left (by simp [hr])
    have hstep := step_transaction h hr hs
    rw [hd] at hstep
    exact ⟨_, hstep, rfl, rfl, rfl⟩

/-- Settles O36: `step_start`, then `steps_transactions` from the start values. -/
theorem accumulatorsAreTheFunctionsOfTheFedBytes : Obligations.AccumulatorsAreTheFunctionsOfTheFedBytes := by
  intro s start ws rest hstart hws h
  obtain ⟨u, hu, hcrc, hsum, hin⟩ := step_start h hstart
  obtain ⟨t, ht, hacc, hrest⟩ := steps_transactions ws hin
  rw [afterTransactions_of_no_init hws, hcrc, hsum, Prod.mk.injEq] at hacc
  obtain ⟨htc, htm⟩ := hacc
  exact ⟨t, (steps_succ hu _).trans ht, hrest, htc, htm⟩

end Sys2Proof.Machine

/-! ## The readback family

Each of the four reads drives `rdata` with what one slot reads as (R24, R70 to R73). What a read of a known register
returns is said once for each of them, and what RDCRCL and a later RDCRCH return together is `split_read`. -/

namespace Sys2Proof.Machine

/-! ### The words of a read row -/

/-- No bit of the data has a part in what a read word decodes to (R41, R44). -/
theorem decode_tword_read (a : Addr) (d e : Half) : decode (tword false a d) = decode (tword false a e) := by
  rw [decode_tword, decode_tword]
  rfl

/-- A word of a read row, whose match is the word an assembler writes, is that row's instruction (R43). -/
theorem decode_of_read_row {T : TWord} {i : Instr} {a : Addr} (hi : encode i = tword false a 0x0000#16)
    (h : T &&& 0xF0000#20 = encode i) : decode T = i := by
  rw [hi] at h
  obtain ⟨d, rfl, -⟩ := eq_tword_of_masked (m := 0x0000#16) h
  rw [decode_tword_read a d 0x0000#16, ← hi, decode_encode]

/-! ### A byte on the bus -/

theorem extractLsb'_setWidth_byte (b : Byte) : (b.setWidth 16 : Half).extractLsb' 0 8 = b := by
  rw [← BitVec.setWidth_eq_extractLsb' (by decide), setWidth_setWidth_byte]

theorem crcHigh_setWidth_byte (b : Byte) : crcHigh (b.setWidth 16) = 0x00#8 := by
  rw [← crcLow_ushiftRight, setWidth_byte_ushiftRight]
  rfl

/-! ### What a read of a known register returns -/

section
variable {s : State} {c : Half} {m : Byte}

theorem exec_rdCrc_of_crc (h : s.crc = c) : exec .rdCrc s = .next { s with rdata := c } := by
  rw [← h]
  rfl

theorem exec_rdSum_of_sum (h : s.sum = m) : exec .rdSum s = .next { s with rdata := m.setWidth 16 } := by
  rw [← h]
  rfl

theorem exec_rdCrcl_of_crc (h : s.crc = c) :
    exec .rdCrcl s = .next { s with rdata := (crcLow c).setWidth 16 } := by
  rw [← h]
  rfl

theorem exec_rdCrch_of_crc (h : s.crc = c) :
    exec .rdCrch s = .next { s with rdata := (crcHigh c).setWidth 16 } := by
  rw [← h]
  rfl

end

/-- INIT and reset both leave the start values (R63, R120). -/
theorem accumulators_of_init_or_reset {s t : State} (h : exec .init s = .next t ∨ t = applyReset s) :
    t.crc = crcInit ∧ t.sum = sumInit := by
  obtain ⟨⟨⟩⟩ | rfl := h <;> exact ⟨rfl, rfl⟩

/-- The additive checksum of the twelve bytes of R71's example. -/
theorem additiveChecksum_example :
    additiveChecksum [0xA5#8, 0x80#8, 0x90#8, 0x08#8, 0x00#8, 0x7D#8, 0x75#8, 0x30#8, 0x03#8, 0x84#8, 0x00#8,
      0x00#8] = 0x66#8 := by
  apply BitVec.eq_of_toNat_eq
  rw [toNat_additiveChecksum]
  rfl

/-! ### The two halves -/

/-- RDCRCL in one state and RDCRCH in another return together the high half of the one's CRC above the low half of the
other's (R72, R73). -/
theorem split_read {s t u v : State} (hlow : exec .rdCrcl s = .next t) (hhigh : exec .rdCrch u = .next v) :
    (v.rdata.extractLsb' 0 8 ++ t.rdata.extractLsb' 0 8 : Half) = crcHigh u.crc ++ crcLow s.crc := by
  cases hlow
  cases hhigh
  rw [State.drive_rdata, State.drive_rdata, extractLsb'_setWidth_byte, extractLsb'_setWidth_byte]

theorem split_read_of_crc_eq {s t u v : State} (hlow : exec .rdCrcl s = .next t)
    (hhigh : exec .rdCrch u = .next v) (hc : u.crc = s.crc) :
    (v.rdata.extractLsb' 0 8 ++ t.rdata.extractLsb' 0 8 : Half) = s.crc := by
  rw [split_read hlow hhigh, hc, crcHigh_append_crcLow]

/-- Where both halves of the CRC change between the two reads, what they return is neither CRC (R73). -/
theorem split_read_of_halves_ne {s t u v : State} (hlow : exec .rdCrcl s = .next t)
    (hhigh : exec .rdCrch u = .next v) (hh : crcHigh u.crc ≠ crcHigh s.crc) (hl : crcLow s.crc ≠ crcLow u.crc) :
    (v.rdata.extractLsb' 0 8 ++ t.rdata.extractLsb' 0 8 : Half) ≠ s.crc ∧
      (v.rdata.extractLsb' 0 8 ++ t.rdata.extractLsb' 0 8 : Half) ≠ u.crc := by
  rw [split_read hlow hhigh]
  constructor
  · exact fun h => hh ((BitVec.append_left_inj _).mp (h.trans (crcHigh_append_crcLow s.crc).symm))
  · exact fun h => hl ((BitVec.append_right_inj _).mp (h.trans (crcHigh_append_crcLow u.crc).symm))

/-! ### The obligations -/

/-- Settles O21: the two reads are of one state, so `split_read_of_crc_eq` gives its CRC. -/
theorem readCrcIsBothHalvesTogether : Obligations.ReadCrcIsBothHalvesTogether := fun s =>
  ⟨_, _, _, exec_rdCrc_of_crc rfl, rfl, rfl, (split_read_of_crc_eq (s := s) rfl rfl rfl).symm⟩

/-- Settles O19: `exec_rdSum_of_sum` at the sum each clause names; the upper byte is `crcHigh_setWidth_byte`. -/
theorem readSumReturnsTheZeroExtendedSum : Obligations.ReadSumReturnsTheZeroExtendedSum := by
  refine ⟨fun T h => decode_of_read_row rfl h, fun s => exec_rdSum_of_sum rfl, fun s t h => ?_, fun s t h => ?_,
    fun s h => exec_rdSum_of_sum (h.trans additiveChecksum_example)⟩
  · cases h
    exact crcHigh_setWidth_byte s.sum
  · obtain ⟨-, hsum⟩ := accumulators_of_init_or_reset h
    exact exec_rdSum_of_sum hsum

/-- Settles O18: `exec_rdCrc_of_crc` at the CRC each clause names, which after a frame and its trailer is
`crc16Modbus_append_crcTrailer`. -/
theorem readCrcReturnsTheWholeRegister : Obligations.ReadCrcReturnsTheWholeRegister := by
  refine ⟨fun T h => decode_of_read_row rfl h, fun s => exec_rdCrc_of_crc rfl, fun s t h => ?_,
    fun s bs h => exec_rdCrc_of_crc (h.trans (crc16Modbus_append_crcTrailer bs)),
    fun s bs h => exec_rdCrc_of_crc h, fun s h => exec_rdCrc_of_crc (h.trans crc16Modbus_readInfo)⟩
  obtain ⟨hcrc, -⟩ := accumulators_of_init_or_reset h
  exact exec_rdCrc_of_crc hcrc

/-- Settles O20: the single reads by the lemmas on a known CRC, the pairs by `split_read`. The pair that is neither
CRC is read at `CRC = 0x807E`, where the byte and the start value change both halves. -/
theorem readCrcHalvesReturnTheBytes : Obligations.ReadCrcHalvesReturnTheBytes := by
  refine ⟨fun T h => decode_of_read_row rfl h, fun T h => decode_of_read_row rfl h, fun s => exec_rdCrcl_of_crc rfl,
    fun s => exec_rdCrch_of_crc rfl, fun s t h => ?init, fun s h => ?readInfo, fun s bs h => ?residue,
    fun i s t u v hlow hw hi hhigh => ?sameCrc, fun b s => ⟨_, _, _, rfl, exec_feed b _, rfl, rfl, rfl⟩,
    fun s => ⟨_, _, _, rfl, rfl, exec_rdCrch_of_crc (c := crcInit) rfl, rfl, rfl⟩,
    fun s => ⟨_, _, rfl, exec_rdCrch_of_crc (c := crcInit) rfl, rfl, rfl⟩, ?mixedByFeed, ?mixedByStart⟩
  case init =>
    obtain ⟨hcrc, -⟩ := accumulators_of_init_or_reset (.inl h)
    exact ⟨exec_rdCrcl_of_crc hcrc, exec_rdCrch_of_crc hcrc⟩
  case readInfo =>
    have hcrc := h.trans crc16Modbus_readInfo
    exact ⟨exec_rdCrcl_of_crc hcrc, exec_rdCrch_of_crc hcrc⟩
  case residue => exact exec_rdCrch_of_crc (h.trans (crc16Modbus_append_crcTrailer bs))
  case sameCrc =>
    obtain ⟨ht, -⟩ := exec_keeps_accumulators hlow rfl
    obtain ⟨hu, -⟩ := exec_keeps_accumulators hi hw
    exact split_read_of_crc_eq hlow hhigh (hu.trans ht)
  case mixedByFeed =>
    exact ⟨{ State.reset with crc := 0x807E#16 }, _, _, _, rfl, exec_feed 0x02#8 _, rfl,
      split_read_of_halves_ne rfl rfl (by decide) (by decide)⟩
  case mixedByStart =>
    exact ⟨{ State.reset with crc := 0x807E#16 }, _, _, _, rfl, ⟨rfl, rfl⟩, rfl,
      split_read_of_halves_ne rfl rfl (by decide) (by decide)⟩

end Sys2Proof.Machine

/-! ## The unmapped family and the software contract

The ignored writes and the reads of the slots that hold nothing (R80 to R89) change no state, so every slot reads as
before. What the software contract asks (R90) is said once, by `conforms_tword_iff`, in terms of the operand's bits of
the write data. -/

namespace Sys2Proof.Machine

/-! ### The high bits of the data -/

/-- No bit from `n` on is set when the field they make is 0. -/
theorem and_high_bits_eq_zero_iff {m n : Nat} (d : BitVec (m + n)) :
    d &&& (BitVec.allOnes m ++ 0#n) = 0#(m + n) ↔ d.extractLsb' n m = 0#m := by
  obtain ⟨hi, lo, rfl⟩ : ∃ (hi : BitVec m) (lo : BitVec n), d = hi ++ lo :=
    ⟨_, _, BitVec.extractLsb'_append_extractLsb'.symm⟩
  rw [BitVec.extractLsb'_append_eq_left, BitVec.and_append, BitVec.and_allOnes, BitVec.and_zero,
    ← BitVec.zero_append_zero, BitVec.append_left_inj]

/-! ### What the software contract asks of a word -/

/-- A transaction keeps the contract when its slot is not a reserved one and, in a write, no data bit is set that is
not the operand's (R90). -/
theorem conforms_tword_iff (we : Bool) (r : Reg) (d : Half) :
    conforms (tword we r.addr d) = true ↔
      (r ≠ .rsv6 ∧ r ≠ .rsv7) ∧ (we = true → d &&& ~~~operandBits true r = 0#16) := by
  rw [conforms, decode_tword, Reg.ofAddr_addr, dField_tword]
  cases we with
  | false => cases r <;> simp
  | true =>
    cases r with
    | data => simp [operandBits]
    | ctrl => cases d.getLsbD 0 <;> simp [operandBits]
    | crc | sum | crcl | crch | rsv6 | rsv7 => simp [operandBits]

/-- A write to a slot that is not reserved keeps the contract when it sets no bit but the operand's. -/
theorem conforms_write_iff {r : Reg} (h6 : r ≠ .rsv6) (h7 : r ≠ .rsv7) (d : Half) :
    conforms (tword true r.addr d) = true ↔ d &&& ~~~operandBits true r = 0#16 := by
  simp [conforms_tword_iff, h6, h7]

/-- The contract forbids the reserved slots, whatever is done there (R90). -/
theorem conforms_reserved_slot {r : Reg} (hr : r = .rsv6 ∨ r = .rsv7) (we : Bool) (d : Half) :
    conforms (tword we r.addr d) = false := by
  apply Bool.eq_false_of_not_eq_true
  rw [conforms_tword_iff]
  rintro ⟨⟨h6, h7⟩, -⟩
  exact hr.elim h6 h7

/-- A write of nothing but operand bits, or a read, of a slot that is not reserved keeps the contract. -/
theorem conforms_operandBits {r : Reg} (h6 : r ≠ .rsv6) (h7 : r ≠ .rsv7) (we : Bool) (d : Half) :
    conforms (tword we r.addr (d &&& operandBits we r)) = true := by
  refine (conforms_tword_iff we r _).mpr ⟨⟨h6, h7⟩, ?_⟩
  rintro rfl
  rw [BitVec.and_assoc, BitVec.and_not_self]
  exact BitVec.and_zero

/-- An assembler's word keeps the contract unless its slot is reserved: it sets no bit that is not the operand's. -/
theorem conforms_encode (i : Instr) :
    conforms (encode i) = true ∨ (∃ d, i = .wrRsv6 d) ∨ (∃ d, i = .wrRsv7 d) ∨ i = .rdRsv6 ∨ i = .rdRsv7 := by
  obtain ⟨we, r, d, hword⟩ := exists_tword_addr (encode i)
  have hi : i = decode (tword we r.addr d) := by rw [← hword, decode_encode]
  by_cases hr : r = .rsv6 ∨ r = .rsv7
  · right
    rw [decode_tword, Reg.ofAddr_addr] at hi
    obtain rfl | rfl := hr <;> cases we <;> simp [hi]
  · left
    obtain ⟨h6, h7⟩ := not_or.mp hr
    rw [hi, encode_decode_tword]
    exact conforms_operandBits h6 h7 we d

/-! ### The statement on the contract -/

/-- Settles O25: `conforms_write_iff` where the operand is a field of the data, `conforms_tword_iff` where there are no
reserved bits, `conforms_reserved_slot`, and `conforms_encode`. -/
theorem softwareContractAsksReservedBitsZero : Obligations.SoftwareContractAsksReservedBitsZero := by
  refine ⟨fun d => ⟨?feed, ?ctrl⟩, fun we d => ⟨conforms_reserved_slot (.inl rfl) we d,
    conforms_reserved_slot (.inr rfl) we d⟩, fun we a d ha => ?result, fun a d ha => ?read, conforms_encode⟩
  case feed =>
    exact (conforms_write_iff (r := .data) (by decide) (by decide) d).trans
      (and_high_bits_eq_zero_iff (m := 8) (n := 8) d)
  case ctrl =>
    exact (conforms_write_iff (r := .ctrl) (by decide) (by decide) d).trans
      (and_high_bits_eq_zero_iff (m := 15) (n := 1) d)
  case result =>
    obtain ⟨r, rfl⟩ := exists_reg_addr a
    have hr : (r ≠ .rsv6 ∧ r ≠ .rsv7) ∧ operandBits true r = 0xFFFF#16 := by
      revert ha
      cases r <;> decide
    obtain ⟨hslot, hbits⟩ := hr
    refine (conforms_tword_iff we r d).mpr ⟨hslot, fun _ => ?_⟩
    rw [hbits]
    exact BitVec.and_zero
  case read =>
    obtain rfl | rfl := ha
    · exact (conforms_tword_iff false .data d).mpr ⟨by decide, nofun⟩
    · exact (conforms_tword_iff false .ctrl d).mpr ⟨by decide, nofun⟩

/-! ### The words of the rows -/

/-- A word of a write row whose operand is all the data is that row's instruction with the word's data (R43). -/
theorem decode_of_write_row {T : TWord} {f : Half → Instr} {a : Addr} (hf : ∀ d, encode (f d) = tword true a d)
    (h : T &&& 0xF0000#20 = encode (f 0x0000#16)) : decode T = f (T.extractLsb' 0 16) := by
  rw [hf] at h
  obtain ⟨d, rfl, -⟩ := eq_tword_of_masked (m := 0x0000#16) h
  rw [← dField, dField_tword, ← hf, decode_encode]

/-- No word of a reserved slot's row keeps the contract. -/
theorem conforms_of_reserved_row {T : TWord} {r : Reg} (hr : r = .rsv6 ∨ r = .rsv7) (we : Bool)
    (h : T &&& 0xF0000#20 = tword we r.addr 0x0000#16) : conforms T = false := by
  obtain ⟨d, rfl, -⟩ := eq_tword_of_masked (m := 0x0000#16) h
  exact conforms_reserved_slot hr we d

/-! ### The rows that change no state -/

/-- Settles O22: the rows' words by `decode_of_write_row`; the next state differs in `rdata`, which no slot reads. -/
theorem writesOfResultSlotsAreIgnored : Obligations.WritesOfResultSlotsAreIgnored :=
  ⟨fun _ => ⟨fun h => decode_of_write_row (fun _ => rfl) h, fun h => decode_of_write_row (fun _ => rfl) h,
      fun h => decode_of_write_row (fun _ => rfl) h, fun h => decode_of_write_row (fun _ => rfl) h⟩,
    fun _ _ => ⟨rfl, rfl, rfl, rfl, fun r => readSlot_congr r rfl rfl⟩⟩

/-- Settles O23: as O22, and the words break the contract by `conforms_of_reserved_row`. -/
theorem writesOfReservedSlotsAreIgnored : Obligations.WritesOfReservedSlotsAreIgnored :=
  ⟨fun _ =>
      ⟨fun h => ⟨decode_of_write_row (fun _ => rfl) h, conforms_of_reserved_row (.inl rfl) true h⟩,
        fun h => ⟨decode_of_write_row (fun _ => rfl) h, conforms_of_reserved_row (.inr rfl) true h⟩⟩,
    fun _ _ => ⟨rfl, rfl, fun r => readSlot_congr r rfl rfl⟩⟩

/-- Settles O24: the rows' words by `decode_of_read_row` and `conforms_of_reserved_row`; the reads answer the same in
every state, so also in the one that a FEED or an INIT leaves. -/
theorem readsOfUnmappedSlotsReturnZero : Obligations.ReadsOfUnmappedSlotsReturnZero :=
  ⟨fun _ => ⟨fun h => decode_of_read_row rfl h, fun h => decode_of_read_row rfl h,
      fun h => ⟨decode_of_read_row rfl h, conforms_of_reserved_row (.inl rfl) false h⟩,
      fun h => ⟨decode_of_read_row rfl h, conforms_of_reserved_row (.inr rfl) false h⟩⟩,
    fun _ => ⟨rfl, rfl, rfl, rfl⟩, fun _ _ _ _ => rfl, fun _ _ _ => rfl⟩

end Sys2Proof.Machine

/-! ## No stop, idle cycles, a stopped clock and a loss of power

There is no exception (R100): what can happen beside a transaction is a cycle without one, an interval without an edge
and a loss of power (R112). Each gets its step rule, beside those of an edge, and the runs of the statements are made
of these rules by `steps_succ`. -/

namespace Sys2Proof.Machine

/-! ### The step where the next input is no edge -/

section
variable {s : State} {rest : List Input}

/-- A stopped clock changes nothing but the master's list, whatever the ports carry (R112, log entry 1). -/
theorem step_noEdge {p : Ports} (h : s.inputs = .noEdge p :: rest) : step s = .next { s with inputs := rest } := by
  simp only [step, takeInput_cons h]

theorem step_powerLoss (h : s.inputs = .powerLoss :: rest) :
    step s = .next (losePower { s with inputs := rest }) := by
  simp only [step, takeInput_cons h]

/-- Any number of idle cycles keeps both accumulators (R21, R112). -/
theorem steps_idle (n : Nat) (h : s.inputs = List.replicate n (.edge Ports.idle) ++ rest) :
    ∃ t, steps n s = .next t ∧ t.crc = s.crc ∧ t.sum = s.sum ∧ t.inputs = rest := by
  induction n generalizing s with
  | zero => exact ⟨s, rfl, rfl, rfl, h⟩
  | succ n ih =>
    have hidle := step_idle (p := Ports.idle) h rfl rfl
    rw [steps_succ hidle]
    exact ih rfl

/-- A loss of power and one reset edge: the reset writes both accumulators, so what they held after the loss does not
matter (R112, R122). -/
theorem steps_powerLoss_reset {p : Ports} (hr : p.rst = true) (h : s.inputs = .powerLoss :: .edge p :: rest) :
    steps 2 s = .next (applyReset { losePower s with inputs := rest }) := by
  rw [steps_succ (step_powerLoss h), steps_succ (step_reset rfl hr), steps_zero]
  rfl

end

/-! ### The obligations on what can happen beside a transaction -/

/-- Settles O43: `exec_next`, and a driven edge is an input inside the spec. -/
theorem everyTransactionCompletes : Obligations.EveryTransactionCompletes := by
  refine ⟨exec_next, fun s p rest h => step_next_of_inSpec ?_⟩
  rw [takeInput_cons h]
  rfl

/-- Settles O49. -/
theorem intervalWithoutEdgeLeavesTheWholeState : Obligations.IntervalWithoutEdgeLeavesTheWholeState :=
  fun _ _ _ => step_noEdge

/-- Settles O46: an induction on the number of idle cycles, the stopped clock's one step, and the loss of power
followed by the reset. -/
theorem idleHoldsAndOneResetRecoversPowerLoss : Obligations.IdleHoldsAndOneResetRecoversPowerLoss := by
  refine ⟨fun n s rest h => steps_idle n h, fun s p rest h => ?stopped, fun s p rest hr h => ?recovery⟩
  case stopped => exact ⟨_, steps_succ (step_noEdge h) 0, rfl, rfl, rfl⟩
  case recovery => exact ⟨_, steps_powerLoss_reset hr h, rfl, rfl, rfl⟩

end Sys2Proof.Machine

/-! ## Reset, concatenation, and reads right after a change

Reset discards the cycle it comes in (R120), and what is not cleared goes on (R123). A read sees all that was done
before it (R126): `steps_exec_exec` says so for the cycle just before, `steps_transactions_read` for any run. A split
read is a run between two reads, of which `steps_split_read` says what the run has to leave (R125). -/

namespace Sys2Proof.Machine

/-! ### Reset and the bytes fed after it -/

/-- Settles O2: `step_reset` discards whatever else the ports carry, `step_noEdge` looks at no port, and INIT's meaning
and the empty folds give the start values. -/
theorem resetEdgeDiscardsAndClears : Obligations.ResetEdgeDiscardsAndClears := by
  refine ⟨fun s p rest hr h => ⟨step_reset h hr, ?_⟩, fun s p rest h => ⟨_, step_noEdge h, rfl, rfl, rfl⟩,
    fun s => ⟨_, rfl, rfl, rfl⟩, crc16Modbus_nil, additiveChecksum_nil⟩
  simp [rdataDuring, hr]

/-- Settles O35: the values of reset are the start values. -/
theorem accumulatorLawHoldsAtReset : Obligations.AccumulatorLawHoldsAtReset := accumulates_nil rfl rfl

/-- Settles O37: FEEDs fold on from what the accumulators hold, and a fold over `bs` and then over `cs` is one over
`bs ++ cs`. -/
theorem missingInitConcatenatesTheSequences : Obligations.MissingInitConcatenatesTheSequences := by
  intro s bs cs rest hc hm h
  obtain ⟨t, ht, htc, htm, -⟩ := steps_feeds cs h
  rw [hc, ← crc16Modbus_append] at htc
  rw [hm, ← additiveChecksum_append] at htm
  exact ⟨t, ht, htc, htm⟩

/-! ### A read after other transactions -/

section
variable {s : State} {rest : List Input}

/-- Transactions that are neither FEED nor INIT leave both accumulators (R28). -/
theorem afterTransactions_of_not_writes {ws : List TWord} (h : ∀ T ∈ ws, writesAccumulators (decode T) = false)
    (cm : Half × Byte) : afterTransactions cm ws = cm := by
  induction ws with
  | nil => rfl
  | cons T ws ih =>
    obtain ⟨hT, hws⟩ := List.forall_mem_cons.mp h
    rw [afterTransactions_cons, afterTransaction_of_not_writes hT, ih hws]

/-- The step at an assembler's word, told by what the instruction does in any state `v` of the same CRC and SUM: it
does not depend on the master's list (R12). -/
theorem step_encode_of_exec {i : Instr} {v w : State} (hi : exec i v = .next w) (hc : s.crc = v.crc)
    (hm : s.sum = v.sum) (h : s.inputs = .edge (Ports.ofWord (encode i)) :: rest) :
    ∃ t, step s = .next t ∧ t.crc = w.crc ∧ t.sum = w.sum ∧ t.rdata = w.rdata ∧ t.inputs = rest := by
  obtain ⟨t, w', ht, hw, htc, htm, htr⟩ := exec_congr i (s := { s with inputs := rest }) hc hm
  obtain rfl : w = w' := by simpa [hi] using hw
  obtain ⟨hin, -⟩ := exec_inputs_draws ht
  exact ⟨t, (step_encode h).trans ht, htc, htm, htr, hin⟩

/-- Two transactions in adjacent cycles: the second sees what the first did, and drives the port accordingly (R126). -/
theorem steps_exec_exec {i j : Instr} {v w : State} (hi : exec i s = .next v) (hj : exec j v = .next w)
    (h : s.inputs = transactions [encode i, encode j] ++ rest) : ∃ u, steps 2 s = .next u ∧ u.rdata = w.rdata := by
  obtain ⟨t, ht, hc, hm, -, hin⟩ := step_encode_of_exec hi rfl rfl h
  obtain ⟨u, hu, -, -, hread, -⟩ := step_encode_of_exec hj hc hm hin
  exact ⟨u, (steps_succ ht 1).trans (steps_succ hu 0), hread⟩

/-- Settles O39: for any run `steps_transactions_read`; for the cycle just before `steps_exec_exec`, with the states
that FEED and INIT leave. -/
theorem readSeesTheWriteOfTheCycleBefore : Obligations.ReadSeesTheWriteOfTheCycleBefore := by
  refine ⟨fun s ws a d rest h => ?anyRun, fun s b rest => ?afterFeed, fun s rest => ?afterInit⟩
  case anyRun =>
    obtain ⟨t, u, ht, hu, hacc, rfl⟩ := steps_transactions_read ws (wField_tword false a d) h
    rw [List.length_append, List.length_singleton] at hu
    exact ⟨t, _, ht, hu, hacc, by rw [aField_tword], rfl, rfl, rfl⟩
  case afterFeed =>
    have hfeed := exec_feed b s
    exact ⟨steps_exec_exec hfeed (exec_rdCrc_of_crc rfl), steps_exec_exec hfeed (exec_rdSum_of_sum rfl),
      steps_exec_exec hfeed (exec_rdCrcl_of_crc rfl), steps_exec_exec hfeed (exec_rdCrch_of_crc rfl)⟩
  case afterInit =>
    have hinit : exec .init s = .next s.clear.quiet := rfl
    have hcrc : s.clear.quiet.crc = crcInit := rfl
    have hsum : s.clear.quiet.sum = sumInit := rfl
    exact ⟨steps_exec_exec hinit (exec_rdCrc_of_crc hcrc), steps_exec_exec hinit (exec_rdSum_of_sum hsum),
      steps_exec_exec hinit (exec_rdCrcl_of_crc hcrc), steps_exec_exec hinit (exec_rdCrch_of_crc hcrc)⟩

/-! ### The split read -/

/-- RDCRCL takes the low byte of the CRC before it, and leaves that CRC to what follows. Where that ends with the high
byte of `c` on the port, the pair is made of both (R72, R73, R125). -/
theorem steps_split_read {n : Nat} {c : Half} (h : s.inputs = .edge (Ports.ofWord (encode .rdCrcl)) :: rest)
    (hrest : ∀ t : State, t.crc = s.crc → t.inputs = rest →
      ∃ u, steps n t = .next u ∧ u.rdata = (crcHigh c).setWidth 16) :
    ∃ t u, steps 1 s = .next t ∧ steps (n + 1) s = .next u ∧
      t.rdata.setWidth 8 = crcLow s.crc ∧ u.rdata.setWidth 8 = crcHigh c := by
  obtain ⟨t, ht, hc, -, hlow, hin⟩ := step_encode_of_exec (exec_rdCrcl_of_crc rfl) rfl rfl h
  obtain ⟨u, hu, hhigh⟩ := hrest t hc hin
  exact ⟨t, u, steps_succ ht 0, (steps_succ ht n).trans hu, by rw [hlow, setWidth_setWidth_byte],
    by rw [hhigh, setWidth_setWidth_byte]⟩

end

/-- Settles O38: what stands between the two reads leaves the CRC (`afterTransactions_of_not_writes`), or it is one
FEED, INIT or reset, whose CRC RDCRCH then reads. -/
theorem splitReadMixesOnlyAcrossAChange : Obligations.SplitReadMixesOnlyAcrossAChange := by
  intro s rest
  refine ⟨fun ws hws h => ?unchanged, fun b h => ?feed, fun h => ?init, fun h => ?reset⟩
  case unchanged =>
    rw [List.append_assoc] at h
    obtain ⟨t, u, ht, hu, hlow, hhigh⟩ := steps_split_read (n := ws.length + 1) (c := s.crc) h fun t hc hin => by
      obtain ⟨v, u, -, hu, hacc, rfl⟩ := steps_transactions_read ws (by decide) hin
      rw [afterTransactions_of_not_writes hws, Prod.mk.injEq] at hacc
      obtain ⟨hv, -⟩ := hacc
      rw [List.length_append, List.length_singleton] at hu
      exact ⟨_, hu, by rw [← hc, ← hv]; rfl⟩
    exact ⟨t, u, ht, hu, by rw [hlow, hhigh, crcHigh_append_crcLow]⟩
  case feed =>
    exact steps_split_read h fun t hc hin => by
      rw [← hc]
      exact steps_exec_exec (exec_feed b t) (exec_rdCrch_of_crc rfl) hin
  case init =>
    exact steps_split_read (c := crcInit) h fun t _ hin =>
      steps_exec_exec (i := .init) rfl (exec_rdCrch_of_crc (c := crcInit) rfl) hin
  case reset =>
    exact steps_split_read (c := crcInit) h fun t _ hin => by
      have hreset := step_reset (p := Ports.reset) hin rfl
      exact ⟨_, (steps_succ hreset 1).trans (steps_succ (step_encode (i := .rdCrch) rfl) 0), rfl⟩

end Sys2Proof.Machine

/-! ## Reset values and listed words

The two tables of values the spec writes out: what the state holds after reset (R10, R11, R121), and the rows of the
words of spec/95_test_vectors.md section 2.10, each an instance of the general lemma on the words of its row. -/

namespace Sys2Proof.Machine

/-- Settles O1: the values of `State.reset`, and CTRL reads as zero in every state. -/
theorem resetStateHoldsTheSpecsValues : Obligations.ResetStateHoldsTheSpecsValues :=
  ⟨rfl, rfl, rfl, rfl⟩

/-- Settles O28: that a word lies in its row is a computation with the row's mask (R43); what it then decodes to is
`decode_of_feed_row`, `decode_of_ctrl_row`, `decode_of_write_row` or `decode_of_read_row`. -/
theorem writtenOutWordsDecodeAsListed : Obligations.WrittenOutWordsDecodeAsListed := by
  refine ⟨decode_of_feed_row (by decide), decode_of_feed_row (by decide),
    decode_of_ctrl_row true (by decide), decode_of_ctrl_row true (by decide),
    decode_of_ctrl_row false (by decide), decode_of_ctrl_row false (by decide),
    ?wrCrc, ?wrSum, ?wrCrcl, ?wrCrch, ?rdData, ?rdCtl, ?rdCrc, ?rdSum, ?rdCrcl, ?rdCrch, ?rdRsv6, ?rdRsv7,
    ?wrRsv6, ?wrRsv7⟩
  case wrCrc | wrSum | wrCrcl | wrCrch | wrRsv6 | wrRsv7 => exact decode_of_write_row (fun _ => rfl) (by decide)
  case rdData | rdCtl | rdCrc | rdSum | rdCrcl | rdCrch | rdRsv6 | rdRsv7 => exact decode_of_read_row rfl (by decide)

end Sys2Proof.Machine
